-- ==== Sys2Proof/Word.lean ====
section
/-! DEFINITION. The two widths of the machine: 8-bit memory cells and operand bytes, 16-bit
registers (spec 00_scope R4: CELL_BITS = 8, XLEN = 16). -/

namespace Sys2Proof

/-- An 8-bit cell or operand byte, read as unsigned (R4, R54). -/
abbrev Byte := BitVec 8

/-- A 16-bit register value, two's complement (R4, R10). -/
abbrev Word := BitVec 16

end Sys2Proof
end

