-- ==== Sys2Proof/Config.lean ====
section
/-! DEFINITION. The constants of spec 00_scope R4. The machine has no configurable parameter and
the spec leaves no value free, so there is no free value here. The three points that R5 lets a
model keep as arguments (`R0_WRITE_POLICY`, `TRUNCATED_ERROR_KIND`, `PARTIAL_STORE`) stand at the
values the spec's rules state (log 3, 4, 5). -/

namespace Sys2Proof

/-- `MEM_SIZE`: the number of memory cells; valid offsets are 0..19 (R4, R30). -/
abbrev Config.memSize : Nat := 20

/-- `HALT_PC`: the value `halt` writes to the pc; equal to `MEM_SIZE` (R4, R96). -/
abbrev Config.haltPc : Nat := 20

/-- The output word's low byte lies here by convention of the host (R32, R127). -/
abbrev Config.outputOffset : Nat := 0x0e

end Sys2Proof
end

