-- ==== Sys2Proof/Syntax.lean ====
section
/-! DEFINITION. The instruction set: one constructor per row of spec/opcode_table.json, in the
order of 30_encoding R55. Operands are the raw bytes, as the decoder passes them on (R54, R56): an
invalid register index is an error of execution (40_step_cycle R77), not of decoding. -/

namespace Sys2Proof

/-- The eight decoded variants (30_encoding R55): a closed set. -/
inductive Instr where
  /-- `load_word reg addr`, opcode 0x01 (R85). -/
  | loadWord (reg addr : Byte)
  /-- `store_word reg addr`, opcode 0x02 (R86). -/
  | storeWord (reg addr : Byte)
  /-- `add reg_a reg_b`, opcode 0x03 (R91). -/
  | add (a b : Byte)
  /-- `sub reg_a reg_b`, opcode 0x04 (R92). -/
  | sub (a b : Byte)
  /-- `add_immediate reg constant`, opcode 0x05 (R93). -/
  | addImmediate (reg k : Byte)
  /-- `branch_if_eq reg_a reg_b new_pc`, opcode 0x06 (R95). -/
  | branchIfEq (a b newPc : Byte)
  /-- `halt`, opcode 0xff (R96). -/
  | halt
  /-- `unknown`, any other opcode byte, which it carries (R97). -/
  | unknown (byte : Byte)
deriving DecidableEq, Repr

end Sys2Proof
end

