-- ==== Sys2Proof/WellFormed.lean ====
section
/-! DEFINITION. Which instruction terms stand for bytes in memory. Every value of every operand
byte is legal (30_encoding R58), so the one check is on `unknown`: its byte is none of the seven
opcodes that another variant owns (R55). -/

namespace Sys2Proof

/-- The seven opcode bytes of R55 that name a variant other than `unknown`. -/
def namedOpcodes : List Byte := [0x01, 0x02, 0x03, 0x04, 0x05, 0x06, 0xff]

/-- `unknown b` is well formed when `b` is 0x00 or 0x07..0xfe (R55); all else is well formed. -/
def Instr.wf : Instr → Bool
  | .loadWord _ _ => true
  | .storeWord _ _ => true
  | .add _ _ => true
  | .sub _ _ => true
  | .addImmediate _ _ => true
  | .branchIfEq _ _ _ => true
  | .halt => true
  | .unknown b => !namedOpcodes.contains b

end Sys2Proof
end

