-- ==== Sys2Proof/Decode.lean ====
section
/-! DEFINITION. The decoder and the encoder (spec 30_encoding R50 to R59), and the reading of an
opcode-table word. The decoder is a pure function of the bytes it is given (R53) and checks no
operand value (R56). -/

namespace Sys2Proof

/-- Why a byte sequence is no instruction. -/
inductive DecodeError where
  /-- Fewer bytes remain than the opcode's length asks for (R57). -/
  | truncated
  /-- The empty sequence, which R56 says is never decoded. -/
  | noBytes
deriving DecidableEq, Repr

/-- `Len(op)`, the length in bytes of an instruction, from its opcode byte alone (R51). -/
def instrLength (op : Byte) : Nat :=
  if op ∈ [(0x01 : Byte), 0x02, 0x03, 0x04, 0x05] then 3
  else if op = 0x06 then 4
  else 1

/-- The variant that an opcode byte selects, with the operand bytes at positions 1, 2 and 3 of the
instruction (R52, R55, R56). A variant takes only as many of them as its format has. -/
def selectVariant (op b1 b2 b3 : Byte) : Instr :=
  if op = 0x01 then .loadWord b1 b2
  else if op = 0x02 then .storeWord b1 b2
  else if op = 0x03 then .add b1 b2
  else if op = 0x04 then .sub b1 b2
  else if op = 0x05 then .addImmediate b1 b2
  else if op = 0x06 then .branchIfEq b1 b2 b3
  else if op = 0xff then .halt
  else .unknown op

/-- `Decode(s)`: the variant with its operand bytes, and its length (R56). The length check comes
before any operand is looked at (R57); bytes after the instruction are not consumed. -/
def decode : List Byte → Except DecodeError (Instr × Nat)
  | [] => .error .noBytes
  | op :: operands =>
    if operands.length + 1 < instrLength op then .error .truncated
    else .ok (selectVariant op (operands.getD 0 0) (operands.getD 1 0) (operands.getD 2 0),
      instrLength op)

/-- The bytes of an instruction, opcode first, operands in the order of R55's table (R50, R52). -/
def encode : Instr → List Byte
  | .loadWord reg addr => [0x01, reg, addr]
  | .storeWord reg addr => [0x02, reg, addr]
  | .add a b => [0x03, a, b]
  | .sub a b => [0x04, a, b]
  | .addImmediate reg k => [0x05, reg, k]
  | .branchIfEq a b t => [0x06, a, b, t]
  | .halt => [0xff]
  | .unknown b => [b]

/-- The four bytes (the longest instruction, R52) of a word numbered as spec/opcode_table.json
numbers it: byte 0 is bits 7..0. Bits from `nbits` up are zero. -/
def tableBytes (nbits w : Nat) : List Byte :=
  [0, 8, 16, 24].map fun i => BitVec.ofNat 8 ((w % 2 ^ nbits) / 2 ^ i)

/-- The instruction that the decoder reads from an opcode-table word. -/
def decodeTableWord (nbits w : Nat) : Option Instr :=
  match decode (tableBytes nbits w) with
  | .ok (i, _) => some i
  | .error _ => none

end Sys2Proof
end

