-- ==== Sys2Proof/Machine/State.lean ====
section
/-! DEFINITION. The whole state of the machine (spec 10_state): three registers of which `x[0]` is
the pc, twenty memory cells, three status registers. "Nothing else is state." -/

namespace Sys2Proof.Machine

/-- The three registers' indices (R10, R15); `x0` is the pc (R11). -/
inductive Reg where
  | x0 | x1 | x2
deriving DecidableEq, Repr

/-- The values of `STATUS` (R20); the 2-bit value 3 is never produced and has no constructor. -/
inductive Status where
  /-- The next step will act. -/
  | running
  /-- Terminal success: a step found `x[0] >= 20` (R73). -/
  | halted
  /-- Terminal failure: a step raised an error (R106). -/
  | errored
deriving DecidableEq, Repr

/-- The values of `ERR_CODE` (R21); the 3-bit values 6 and 7 are never produced. -/
inductive ErrCode where
  /-- 0: no error. -/
  | none
  /-- 1. -/
  | outOfBounds
  /-- 2. -/
  | negativePc
  /-- 3. -/
  | unknownInstruction
  /-- 4. -/
  | invalidRegister
  /-- 5. -/
  | truncated
deriving DecidableEq, Repr

/-- The five errors of 60_exceptions R100. They are architectural: a step that raises one answers a
next state (R106), never a `Fault`. -/
inductive Error where
  /-- A data byte offset of 20 or more, with that offset (R101). -/
  | outOfBounds (offset : Nat)
  /-- `x[0] < 0` at the start of a step (R102). -/
  | negativePc
  /-- The opcode byte is none of the table's (R103). -/
  | unknownInstruction
  /-- A register operand byte of 3 or more (R104). -/
  | invalidRegister
  /-- The instruction would extend past offset 19 (R105). -/
  | truncated
deriving DecidableEq, Repr

/-- The 20 cells, as (offset, byte) pairs with strictly rising offsets below 20. An unlisted offset
holds NO VALUE: no image and no store has filled it (R26, R123; log 1, DESIGN CHOICE, safe). -/
abbrev Memory := List Host.Cell

/-- The architectural state (R10, R20 to R23). -/
structure State where
  /-- `x[0]`, the pc (R11, R16). -/
  x0 : Word
  /-- `x[1]` (R10). -/
  x1 : Word
  /-- `x[2]` (R10). -/
  x2 : Word
  /-- `M[0..19]` (R23). -/
  mem : Memory
  /-- `STATUS` (R20). -/
  status : Status
  /-- `ERR_CODE` (R21). -/
  errCode : ErrCode
  /-- `ERR_INFO` (R22). -/
  errInfo : Byte
deriving DecidableEq, Repr

/-- Why the model stops. The five errors of the spec are not here: they are next states. -/
inductive Fault where
  /-- Raised by fetch and by `load_word` when a cell that they read has been filled by no image and
  no store, so that the spec gives it no contents (R123, U11; log 1). Safe: the hardware would go on
  with some byte, the model proves nothing of it. In a loaded memory it never occurs. -/
  | cellNotLoaded
deriving DecidableEq, Repr

/-- What the model gives no meaning. -/
inductive Refusal where
  /-- An instruction that has no meaning yet (safe). Raised by no arm of `exec`. -/
  | notModelled (mnemonic : String)
  /-- Raised by the host transaction `loadImage` for an image that is not 20 bytes long: "the load is
  refused at the host interface and never reaches the core" (R124). Safe. -/
  | imageLength (length : Nat)
deriving DecidableEq, Repr

/-- The outcome type of every meaning and of the step. -/
abbrev Result := Host.Outcome State Fault Refusal

/-- The machine after reset (R26, R120), with no image loaded yet (log 1, log 13). -/
def State.reset : State where
  x0 := 0
  x1 := 0
  x2 := 0
  mem := []
  status := .running
  errCode := .none
  errInfo := 0

end Sys2Proof.Machine
end

