-- ==== Sys2Proof/Machine/Ops.lean ====
section
/-! DEFINITION. The shared operations: ALU, register file, memory with its bounds checker, the pc
unit's write, the entry of an error, and reset (spec 10_state, 20_memory, 40_step_cycle,
42_arithmetic R90, 60_exceptions R106, 70_reset R120). -/

namespace Sys2Proof.Machine

/-! ### The ALU -/

/-- `wrap16(n)`: the two's-complement value of `n` modulo 65536 (00_scope section 6). -/
def wrap16 (n : Int) : Word := BitVec.ofInt 16 n

/-- `s16(u)`: a 16-bit pattern as a register value (00_scope section 6). -/
def s16 (u : Nat) : Word := BitVec.ofNat 16 u

/-- `u16(v)`: a register's bit pattern as an unsigned integer (00_scope section 6). -/
def u16 (v : Word) : Nat := v.toNat

/-- Addition with 16-bit signed wrap-around and no trap (R90). -/
def aluAdd (a b : Word) : Word := wrap16 (a.toInt + b.toInt)

/-- Subtraction with 16-bit signed wrap-around and no trap (R90). -/
def aluSub (a b : Word) : Word := wrap16 (a.toInt - b.toInt)

/-! ### The register file -/

/-- `x[r]`; reading `x[0]` reads `p`, since the pc write is the last of a step (R11, R12). -/
def readReg (s : State) : Reg → Word
  | .x0 => s.x0
  | .x1 => s.x1
  | .x2 => s.x2

/-- `x[r] <- v`. -/
def writeReg (r : Reg) (v : Word) (s : State) : State :=
  match r with
  | .x0 => { s with x0 := v }
  | .x1 => { s with x1 := v }
  | .x2 => { s with x2 := v }

/-- The pc write, the last write of a step (R79, R80). -/
def setPc (v : Word) (s : State) : State := { s with x0 := v }

/-- The end of an instruction with a data result: the data write, and then the pc write with
`p + 3`, computed from the pc of the state before. When `r` is register 0 the pc write replaces the
data result (R13, R80; the spec's decision D2, log 3). -/
def writeBack (r : Reg) (v : Word) (s : State) : State := setPc (s.x0 + 3) (writeReg r v s)

/-! ### Memory -/

/-- The canonical form: offsets strictly rising, all below 20. No entry can equal what an unlisted
offset reads as, since that is no value (log 1). -/
abbrev Memory.wf (m : Memory) : Prop :=
  m.Pairwise (fun c d => c.1 < d.1) ∧ ∀ c ∈ m, c.1 < Config.memSize

/-- Raw read of one cell, with no bounds check; `none` for a cell that nothing has filled (log 1). -/
def readCell : Memory → Nat → Option Byte
  | [], _ => none
  | (a, v) :: m, o => if a = o then some v else readCell m o

/-- Raw write of one cell, keeping the canonical form. -/
def writeCell : Memory → Nat → Byte → Memory
  | [], o, b => [(o, b)]
  | (a, v) :: m, o, b =>
    if o < a then (o, b) :: (a, v) :: m
    else if o = a then (o, b) :: m
    else (a, v) :: writeCell m o b

/-- The outcome of a bounds-checked access. -/
inductive Access (α : Type) where
  /-- The access is done. -/
  | done (v : α)
  /-- The lowest offset of the access that is 20 or more (R33, R36). -/
  | outOfBounds (offset : Nat)
  /-- Every offset is in range, and a cell that is read holds no value (log 1). -/
  | notLoaded
deriving DecidableEq, Repr

/-- The bounds checker: the lowest of the `n` offsets from `addr` up that is outside the memory
(R33 to R36). The offsets are natural numbers, so `addr + 1` never wraps. -/
def firstOutside (addr : Nat) : Nat → Option Nat
  | 0 => none
  | n + 1 => if Config.memSize ≤ addr then some addr else firstOutside (addr + 1) n

/-- The little-endian value of the `n` cells from `addr` up (R34, R37). -/
def readLittleEndian (m : Memory) (addr : Nat) : Nat → Option Nat
  | 0 => some 0
  | n + 1 =>
    match readCell m addr, readLittleEndian m (addr + 1) n with
    | some b, some v => some (b.toNat + 256 * v)
    | _, _ => none

/-- The `n` low bytes of `v` to the cells from `addr` up, least significant first (R35, R37). -/
def writeLittleEndian (m : Memory) (addr : Nat) : Nat → Nat → Memory
  | 0, _ => m
  | n + 1, v => writeLittleEndian (writeCell m addr (BitVec.ofNat 8 v)) (addr + 1) n (v / 256)

/-- `MemRead(addr, n)` (R34): all checks come before the value is formed. -/
def memRead (m : Memory) (addr n : Nat) : Access Nat :=
  match firstOutside addr n with
  | some o => .outOfBounds o
  | none =>
    match readLittleEndian m addr n with
    | some v => .done v
    | none => .notLoaded

/-- `MemWrite(addr, n, v)` (R35): every offset is checked before any byte is written (decision D6,
log 5). -/
def memWrite (m : Memory) (addr n v : Nat) : Access Memory :=
  match firstOutside addr n with
  | some o => .outOfBounds o
  | none => .done (writeLittleEndian m addr n v)

/-- The cells from `p` up, at most `n` of them, as far as they are loaded. -/
def loadedFrom (m : Memory) (p : Nat) : Nat → List Byte
  | 0 => []
  | n + 1 =>
    match readCell m p with
    | some b => b :: loadedFrom m (p + 1) n
    | none => []

/-- The byte slice `M[p..19]` that fetch hands the decoder (R74), as far as it is loaded. -/
def fetchSlice (m : Memory) (p : Nat) : List Byte := loadedFrom m p (Config.memSize - p)

/-- Bytes written to ascending offsets from `o`, those past offset 19 dropped: there is no such cell. -/
def writeBytes (m : Memory) (o : Nat) : List Byte → Memory
  | [] => m
  | b :: bs => if o < Config.memSize then writeBytes (writeCell m o b) (o + 1) bs else m

/-! ### Errors and reset -/

/-- The error's entry in `ERR_CODE` (R100). -/
def errorCode : Error → ErrCode
  | .outOfBounds _ => .outOfBounds
  | .negativePc => .negativePc
  | .unknownInstruction => .unknownInstruction
  | .invalidRegister => .invalidRegister
  | .truncated => .truncated

/-- The error's entry in `ERR_INFO`: the offset for `OutOfBounds`, else 0 (R22, R100). -/
def errorInfo : Error → Byte
  | .outOfBounds offset => BitVec.ofNat 8 offset
  | .negativePc => 0
  | .unknownInstruction => 0
  | .invalidRegister => 0
  | .truncated => 0

/-- `raise E(info)`, the only trap entry of this machine: nothing but the status registers is
written, so `x[0]` stays `p` (R106). There is no handler, no saved pc and no return (R108). -/
def raiseError (e : Error) (s : State) : State :=
  { s with status := .errored, errCode := errorCode e, errInfo := errorInfo e }

/-- `STATUS <- HALTED`, the success halt; nothing else is written (R73, R112). -/
def haltSuccess (s : State) : State := { s with status := .halted }

/-- `Reset()`: the registers and status registers at their reset values, memory untouched (R120). It
is the only way out of a terminal state, and no instruction performs it (R108). -/
def applyReset (s : State) : State := { State.reset with mem := s.mem }

end Sys2Proof.Machine
end

