-- ==== Sys2Proof/Machine/Operands.lean ====
section
/-! DEFINITION. The operand forms (spec 30_encoding R54): register index, memory offset, 8-bit
constant, absolute branch target; and the register-index check (40_step_cycle R77). -/

namespace Sys2Proof.Machine

/-- `zext_16(b)`: the top 8 bits are zero (00_scope section 6; R54). -/
def zext16 (b : Byte) : Word := b.setWidth 16

/-- An `addr` operand as a memory offset, unsigned 0..255 (R54). -/
def offsetOf (addr : Byte) : Nat := addr.toNat

/-- The register that an operand byte names; only 0, 1 and 2 name one (R15, R54). -/
def regOf (b : Byte) : Option Reg :=
  if b = 0 then some .x0
  else if b = 1 then some .x1
  else if b = 2 then some .x2
  else none

/-- An instruction with one register operand: `InvalidRegister` before anything else if the byte
names no register (R77, R104). -/
def withReg (b : Byte) (s : State) (body : Reg → Result) : Result :=
  match regOf b with
  | some r => body r
  | none => .next (raiseError .invalidRegister s)

/-- An instruction with two register operands: both bytes are checked before either register is
read, and one invalid or two invalid bytes raise the same error (R77). -/
def withRegs (a b : Byte) (s : State) (body : Reg → Reg → Result) : Result :=
  withReg a s fun ra => withReg b s fun rb => body ra rb

/-- What an instruction does with its memory access: an out-of-range offset raises `OutOfBounds`
with that offset (R33, R101); a read of a cell that holds no value stops the model (log 1). -/
def withAccess {α : Type} (access : Access α) (s : State) (body : α → Result) : Result :=
  match access with
  | .done v => body v
  | .outOfBounds o => .next (raiseError (.outOfBounds o) s)
  | .notLoaded => .fault .cellNotLoaded

end Sys2Proof.Machine
end

