-- ==== Sys2Proof/Machine/Arithmetic.lean ====
section
/-! DEFINITION. Arithmetic (spec 42_arithmetic R91 to R93). -/

namespace Sys2Proof.Machine

/-- `add reg_a reg_b` (R91). -/
def execAdd (a b : Byte) (s : State) : Result :=
  withRegs a b s fun ra rb => .next (writeBack ra (aluAdd (readReg s ra) (readReg s rb)) s)

/-- `sub reg_a reg_b` (R92). -/
def execSub (a b : Byte) (s : State) : Result :=
  withRegs a b s fun ra rb => .next (writeBack ra (aluSub (readReg s ra) (readReg s rb)) s)

/-- `add_immediate reg constant` (R93); the constant is zero-extended, and overflow wraps as for
`add` (decision D8, log 8). -/
def execAddImmediate (reg k : Byte) (s : State) : Result :=
  withReg reg s fun r => .next (writeBack r (aluAdd (readReg s r) (zext16 k)) s)

end Sys2Proof.Machine
end

