-- ==== Sys2Proof/Machine/Flags.lean ====
section
/-! DEFINITION. The machine has no flags (spec 10_state R19). Here stand the comparator, whose
result `branch_if_eq` uses at once and keeps nowhere (R95), and the status registers as the words
the host reads (R20 to R22). -/

namespace Sys2Proof.Machine

/-- The 16-bit equality comparator (R7, R95). -/
def equalWords (a b : Word) : Bool := a == b

/-- `STATUS` as its 2-bit word (R20). -/
def statusWord (s : State) : BitVec 2 :=
  match s.status with
  | .running => 0
  | .halted => 1
  | .errored => 2

/-- `ERR_CODE` as its 3-bit word (R21, R100). -/
def errCodeWord (s : State) : BitVec 3 :=
  match s.errCode with
  | .none => 0
  | .outOfBounds => 1
  | .negativePc => 2
  | .unknownInstruction => 3
  | .invalidRegister => 4
  | .truncated => 5

end Sys2Proof.Machine
end

