-- ==== Sys2Proof/Machine/Control.lean ====
section
/-! DEFINITION. Control (spec 43_control R95 to R97). -/

namespace Sys2Proof.Machine

/-- `branch_if_eq reg_a reg_b new_pc` (R95): the target is absolute and not checked. -/
def execBranchIfEq (a b newPc : Byte) (s : State) : Result :=
  withRegs a b s fun ra rb =>
    .next (setPc (if equalWords (readReg s ra) (readReg s rb) then zext16 newPc else s.x0 + 4) s)

/-- `halt` (R96): the pc goes to 20 and `STATUS` stays as it is; the next step halts (log 11). -/
def execHalt (s : State) : Result := .next (setPc (BitVec.ofNat 16 Config.haltPc) s)

/-- `unknown` (R97): the instruction's whole effect is the error. The byte is the disassembler's. -/
def execUnknown (_byte : Byte) (s : State) : Result := .next (raiseError .unknownInstruction s)

end Sys2Proof.Machine
end

