-- ==== Sys2Proof/Machine/LoadStore.lean ====
section
/-! DEFINITION. Loads and stores (spec 41_load_store R85, R86). -/

namespace Sys2Proof.Machine

/-- `load_word reg addr` (R85). -/
def execLoadWord (reg addr : Byte) (s : State) : Result :=
  withReg reg s fun r =>
    withAccess (memRead s.mem (offsetOf addr) 2) s fun w =>
      .next (writeBack r (s16 w) s)

/-- `store_word reg addr` (R86). -/
def execStoreWord (reg addr : Byte) (s : State) : Result :=
  withReg reg s fun r =>
    withAccess (memWrite s.mem (offsetOf addr) 2 (u16 (readReg s r))) s fun m =>
      .next (setPc (s.x0 + 3) { s with mem := m })

end Sys2Proof.Machine
end

