-- ==== Sys2Proof/Machine/Dispatch.lean ====
section
/-! DEFINITION. Dispatch on the variant: exactly one of the eight bodies runs (spec 40_step_cycle R76). -/

namespace Sys2Proof.Machine

/-- The body of an instruction, run in the state its step hands it (R70). -/
def exec (i : Instr) (s : State) : Host.Outcome State Fault Refusal :=
  match i with
  | .loadWord reg addr => Sys2Proof.Machine.execLoadWord reg addr s
  | .storeWord reg addr => Sys2Proof.Machine.execStoreWord reg addr s
  | .add a b => Sys2Proof.Machine.execAdd a b s
  | .sub a b => Sys2Proof.Machine.execSub a b s
  | .addImmediate reg k => Sys2Proof.Machine.execAddImmediate reg k s
  | .branchIfEq a b newPc => Sys2Proof.Machine.execBranchIfEq a b newPc s
  | .halt => Sys2Proof.Machine.execHalt s
  | .unknown byte => Sys2Proof.Machine.execUnknown byte s

end Sys2Proof.Machine
end

