-- ==== Sys2Proof/Machine/Cycle.lean ====
section
/-! DEFINITION. Fetch and the step's checks, in the order of the pseudocode of spec 40_step_cycle
R70, which is the priority of R107. -/

namespace Sys2Proof.Machine

/-- What fetch finds at an offset of the memory. -/
inductive Fetched where
  /-- The bytes there decode to this instruction (R74). -/
  | instr (i : Instr)
  /-- The instruction would extend past offset 19 (R75). -/
  | truncated
  /-- A cell of the instruction holds no value (log 1). -/
  | notLoaded
deriving DecidableEq, Repr

/-- Fetch at offset `p`: the opcode byte; the length check, made from it alone; then the operand
bytes, by giving the decoder the slice from `p` (R74, R75). -/
def fetch (m : Memory) (p : Nat) : Fetched :=
  match readCell m p with
  | none => .notLoaded
  | some op =>
    if Config.memSize < p + instrLength op then .truncated
    else
      match decode (fetchSlice m p) with
      | .ok (i, _) => .instr i
      | .error _ => .notLoaded

/-- A running core's step at a pc inside the memory: fetch, then the body or `Truncated`. -/
def fetchAndExec (s : State) : Result :=
  match fetch s.mem s.x0.toNat with
  | .instr i => exec i s
  | .truncated => .next (raiseError .truncated s)
  | .notLoaded => .fault .cellNotLoaded

/-- A running core's step: the two pc checks (R72, R73), which compare the signed 16-bit register,
then fetch. -/
def runningStep (s : State) : Result :=
  if s.x0.toInt < 0 then .next (raiseError .negativePc s)
  else if (Config.memSize : Int) ≤ s.x0.toInt then .next (haltSuccess s)
  else fetchAndExec s

/-- `Step()` (R70): the terminal states do nothing (R71). -/
def stepCycle (s : State) : Result :=
  match s.status with
  | .running => runningStep s
  | .halted => .next s
  | .errored => .next s

end Sys2Proof.Machine
end

