-- ==== Sys2Proof/Machine/Step.lean ====
section
/-! DEFINITION. The step (spec 40_step_cycle R70), and the placing of an instruction where the next
step fetches it. -/

namespace Sys2Proof.Machine

/-- One step of the machine (R70). -/
def step (s : State) : Host.Outcome State Fault Refusal := stepCycle s

/-- The state with an opcode-table word's bytes stored from the pc up, as a host's image would have
them there (log 2). Nothing but memory changes. -/
def State.withFetchWord (s : State) (nbits w : Nat) : State :=
  { s with mem := writeBytes s.mem s.x0.toNat (tableBytes nbits w) }

end Sys2Proof.Machine
end

