-- ==== Sys2Proof/Machine/Disassembler.lean ====
section
/-! DEFINITION. The disassembler (spec 30_encoding R62 to R67): software that shares the decoder. No
rule of the step reads anything it produces (00_scope R3). -/

namespace Sys2Proof.Machine

/-- A hexadecimal digit, in lower case (R63, G1). -/
def hexDigit (n : Nat) : Char := if n < 10 then Char.ofNat (48 + n) else Char.ofNat (87 + n)

/-- `{v:#04x}`: `0x` and two digits (R63). -/
def hexByte (b : Byte) : List Char := ['0', 'x', hexDigit (b.toNat / 16), hexDigit (b.toNat % 16)]

/-- `r{reg}`: `r` and the operand byte in decimal with no padding, valid index or not (R63, R67). -/
def regName (b : Byte) : List Char :=
  let digit := fun n => Char.ofNat (48 + n % 10)
  let n := b.toNat
  'r' :: (if n < 10 then [digit n]
    else if n < 100 then [digit (n / 10), digit n]
    else [digit (n / 100), digit (n / 10), digit n])

/-- The rendering of an instruction, as its characters (R62). -/
def renderChars : Instr → List Char
  | .loadWord reg addr => "load_word ".toList ++ regName reg ++ " (".toList ++ hexByte addr ++ [')']
  | .storeWord reg addr => "store_word ".toList ++ regName reg ++ " (".toList ++ hexByte addr ++ [')']
  | .add a b => "add ".toList ++ regName a ++ [' '] ++ regName b
  | .sub a b => "sub ".toList ++ regName a ++ [' '] ++ regName b
  | .addImmediate reg k =>
    "add_immediate ".toList ++ regName reg ++ " (".toList ++ hexByte k ++ [')']
  | .branchIfEq a b t =>
    "branch_if_eq ".toList ++ regName a ++ [' '] ++ regName b ++ [' '] ++ hexByte t
  | .halt => "halt".toList
  | .unknown b => hexByte b

/-- The rendering of an instruction, "exact strings" (R62). -/
def render (i : Instr) : String := String.ofList (renderChars i)

/-- The linear sweep with a bound on its length, which `sweep` gives as the number of bytes: each
instruction takes at least one, so the bound is never met. -/
def sweepWithin : Nat → List Byte → Except DecodeError (List (Instr × Nat))
  | _, [] => .ok []
  | 0, _ :: _ => .error .truncated
  | n + 1, b :: bs =>
    match decode (b :: bs) with
    | .error e => .error e
    | .ok (i, len) =>
      match sweepWithin n ((b :: bs).drop len) with
      | .error e => .error e
      | .ok rest => .ok ((i, len) :: rest)

/-- The instructions of a byte sequence from its start, with their lengths; a truncated tail makes
the whole sweep the `Truncated` error (R64, R66, D17). -/
def sweep (bytes : List Byte) : Except DecodeError (List (Instr × Nat)) :=
  sweepWithin bytes.length bytes

/-- `Disassemble(s)`: the renderings in order (R64). -/
def disassemble (bytes : List Byte) : Except DecodeError (List String) :=
  match sweep bytes with
  | .ok rows => .ok (rows.map fun row => render row.1)
  | .error e => .error e

end Sys2Proof.Machine
end

