-- ==== Sys2Proof/Machine/Interface.lean ====
section
/-! DEFINITION. The host's transactions (spec 70_reset R124 to R129) beside `Reset`, which is
`applyReset`, and `Step`, which is `step`. No step performs one of them: the host has no move during
a run (R128, log 12). -/

namespace Sys2Proof.Machine

/-- `LoadImage(bytes[20])`: `M[i] <- bytes[i]` for every cell; an image of another length is refused
(R124, R129, U14). -/
def loadImage (image : List Byte) (s : State) : Result :=
  if image.length = Config.memSize then .next { s with mem := writeBytes s.mem 0 image }
  else .refused (.imageLength image.length)

/-- The launch of a run: the image is loaded, then reset is applied (R124). -/
def launch (image : List Byte) (s : State) : Result :=
  match loadImage image s with
  | .next t => .next (applyReset t)
  | .fault f => .fault f
  | .refused r => .refused r

/-- `ReadByte(o)`: `none` for an offset of 20 or more, which the host must not use, and for a cell
that nothing has filled (R129, log 1). -/
def readByte (s : State) (o : Nat) : Option Byte :=
  if o < Config.memSize then readCell s.mem o else none

/-- The output word, the little-endian word at 0x0e and 0x0f, by convention of the host: the core
gives these cells no special treatment (R32, R127). -/
def outputWord (s : State) : Option Word :=
  match readByte s Config.outputOffset, readByte s (Config.outputOffset + 1) with
  | some lo, some hi => some (s16 (lo.toNat + 256 * hi.toNat))
  | _, _ => none

end Sys2Proof.Machine
end

