-- ==== Sys2Proof/Safety.lean ====
section
/-! DEFINITION. The terms in which claims speak of good states and runs. -/

namespace Sys2Proof.Machine

/-- Every one of the 20 cells holds a value, as after `LoadImage` (R124). -/
def Loaded (s : State) : Prop := ∀ o, o < Config.memSize → ∃ b, readCell s.mem o = some b

/-- The memory is in its canonical form. -/
def MemoryCanonical (s : State) : Prop := Memory.wf s.mem

/-- R21 and R22: no code and no info unless `ERRORED`; a code if `ERRORED`; the info is 0 but for
`OutOfBounds`, which holds an offset of 20 or more. -/
def StatusConsistent (s : State) : Prop :=
  (s.status = .errored ↔ s.errCode ≠ .none) ∧
  (s.errCode ≠ .outOfBounds → s.errInfo = 0) ∧
  (s.errCode = .outOfBounds → 20 ≤ s.errInfo.toNat)

/-- The pc as every run from reset has it (R18): never negative, at most 255. -/
def PcInRange (s : State) : Prop := 0 ≤ s.x0.toInt ∧ s.x0.toInt ≤ 255

/-- All that a launched machine keeps along its run. -/
def Launched (s : State) : Prop :=
  MemoryCanonical s ∧ Loaded s ∧ StatusConsistent s ∧ PcInRange s ∧ s.errCode ≠ .negativePc

/-- The operand byte `b` names a register, and that register reads `v` in `s`: 0 reads the pc, which
is the offset of the instruction's own opcode byte (R12), 1 and 2 read `x[1]` and `x[2]` (R15). -/
def OperandReads (s : State) (b : Byte) (v : Word) : Prop :=
  (b = 0 ∧ v = s.x0) ∨ (b = 1 ∧ v = s.x1) ∨ (b = 2 ∧ v = s.x2)

/-- A run of `k` steps (R81): the terminal states absorb, so a run that has ended stays ended. -/
def runSteps (k : Nat) (s : State) : Result := Sys2Proof.core.run k s

end Sys2Proof.Machine
end

