-- ==== Sys2Proof/Certificates/Slice0/Obligations.lean ====
section
/-! DEFINITION. The statements for the provers. Results are written out field by field over the state
before, with the rule each formalises. -/

open Sys2Proof Sys2Proof.Machine

/-! ### The step -/

/-- R70, R74, R76: when the cells from the pc up hold bytes that decode to `i`, and `i` ends inside
the memory, the step of a running core is `exec i`, and nothing is added around it. -/
def Obligations.StepRunsTheDecodedInstruction : Prop :=
  ∀ (s : State) (bytes : List Byte) (i : Instr),
    s.status = .running → 0 ≤ s.x0.toInt → s.x0.toInt + bytes.length ≤ 20 →
    (∀ k, (hk : k < bytes.length) → readCell s.mem (s.x0.toNat + k) = some bytes[k]) →
    decode bytes = .ok (i, bytes.length) →
    step s = exec i s

/-- R71, R108 (the spec's decision D10, log 10): `HALTED` and `ERRORED` absorb, so a run of any
length from such a state ends in that very state. -/
def Obligations.TerminalStatesAbsorbEveryRun : Prop :=
  ∀ (k : Nat) (s : State), s.status ≠ .running → runSteps k s = .next s

/-- R72: a running core whose pc has bit 15 set raises `NegativePc`, whatever the memory, and writes
nothing but the status registers (numbers and registers of the error: decisions D9, D16, log 9). -/
def Obligations.NegativePcIsCheckedFirst : Prop :=
  ∀ s : State, s.status = .running → s.x0.msb = true →
    s.x0.toInt < 0 ∧
    step s = .next { s with status := .errored, errCode := .negativePc, errInfo := 0 }

/-- R73: a running core halts with success exactly when its signed pc is 20 or more, and then only
`STATUS` is written. -/
def Obligations.SuccessHaltExactlyPastTheEnd : Prop :=
  ∀ s : State, s.status = .running →
    (20 ≤ s.x0.toInt → step s = .next { s with status := .halted }) ∧
    ∀ t, step s = .next t → t.status = .halted → 20 ≤ s.x0.toInt

/-- R112: the success halt is not an error: `STATUS` is `HALTED` and `ERR_CODE` is 0. The premise
`StatusConsistent` is the invariant of R21 and R22, stated on its own below. -/
def Obligations.SuccessHaltIsNoError : Prop :=
  ∀ s : State, s.status = .running → StatusConsistent s → 20 ≤ s.x0.toInt →
    ∃ t, step s = .next t ∧ t.status = .halted ∧ t.errCode = .none ∧ t.errInfo = 0

/-- R75 (the spec's decisions D3 and D5, log 4 and log 7): when the opcode's length passes offset 20
the step raises `Truncated`, whatever the other cells hold. -/
def Obligations.TruncatedFromTheOpcodeAlone : Prop :=
  ∀ (s : State) (op : Byte), s.status = .running → 0 ≤ s.x0.toInt → s.x0.toInt < 20 →
    readCell s.mem s.x0.toNat = some op → 20 < s.x0.toInt + instrLength op →
    step s = .next { s with status := .errored, errCode := .truncated, errInfo := 0 }

/-- The model's own stop (log 1, DESIGN CHOICE): a running core whose opcode cell has been filled by
no image and no store stops; so does the machine right after reset, with no image. -/
def Obligations.FetchOfAnUnloadedCellStops : Prop :=
  (∀ s : State, s.status = .running → 0 ≤ s.x0.toInt → s.x0.toInt < 20 →
    readCell s.mem s.x0.toNat = none → step s = .fault .cellNotLoaded) ∧
  step State.reset = .fault .cellNotLoaded

/-! ### The instructions -/

/-- R85, whole: encoding, the three errors in their order, the result in each register, and all else
unchanged. The clause for register 0 is R85's corner case (d). -/
def Obligations.LoadWordMeaning : Prop :=
  ∀ (reg addr : Byte) (s : State),
    encode (.loadWord reg addr) = [0x01, reg, addr] ∧
    (∀ rest, decode (0x01 :: reg :: addr :: rest) = .ok (.loadWord reg addr, 3)) ∧
    (3 ≤ reg.toNat → exec (.loadWord reg addr) s =
      .next { s with status := .errored, errCode := .invalidRegister, errInfo := 0 }) ∧
    (reg.toNat < 3 → 20 ≤ addr.toNat → exec (.loadWord reg addr) s =
      .next { s with status := .errored, errCode := .outOfBounds, errInfo := addr }) ∧
    (reg.toNat < 3 → addr.toNat = 19 → exec (.loadWord reg addr) s =
      .next { s with status := .errored, errCode := .outOfBounds, errInfo := 20 }) ∧
    ∀ lo hi : Byte, addr.toNat ≤ 18 → readCell s.mem addr.toNat = some lo →
      readCell s.mem (addr.toNat + 1) = some hi →
      (reg = 0 → exec (.loadWord reg addr) s = .next { s with x0 := s.x0 + 3 }) ∧
      (reg = 1 → exec (.loadWord reg addr) s =
        .next { s with x0 := s.x0 + 3, x1 := BitVec.ofNat 16 (lo.toNat + 256 * hi.toNat) }) ∧
      (reg = 2 → exec (.loadWord reg addr) s =
        .next { s with x0 := s.x0 + 3, x2 := BitVec.ofNat 16 (lo.toNat + 256 * hi.toNat) })

/-- R86, whole: encoding, the three errors in their order, the two bytes stored, and all else
unchanged, every other cell of memory among it; the canonical form of the memory is kept. -/
def Obligations.StoreWordMeaning : Prop :=
  ∀ (reg addr : Byte) (s : State),
    encode (.storeWord reg addr) = [0x02, reg, addr] ∧
    (∀ rest, decode (0x02 :: reg :: addr :: rest) = .ok (.storeWord reg addr, 3)) ∧
    (3 ≤ reg.toNat → exec (.storeWord reg addr) s =
      .next { s with status := .errored, errCode := .invalidRegister, errInfo := 0 }) ∧
    (reg.toNat < 3 → 20 ≤ addr.toNat → exec (.storeWord reg addr) s =
      .next { s with status := .errored, errCode := .outOfBounds, errInfo := addr }) ∧
    (reg.toNat < 3 → addr.toNat = 19 → exec (.storeWord reg addr) s =
      .next { s with status := .errored, errCode := .outOfBounds, errInfo := 20 }) ∧
    ∀ v : Word, addr.toNat ≤ 18 → OperandReads s reg v →
      ∃ m : Memory, exec (.storeWord reg addr) s = .next { s with x0 := s.x0 + 3, mem := m } ∧
        readCell m addr.toNat = some (BitVec.ofNat 8 v.toNat) ∧
        readCell m (addr.toNat + 1) = some (BitVec.ofNat 8 (v.toNat / 256)) ∧
        (∀ o, o ≠ addr.toNat → o ≠ addr.toNat + 1 → readCell m o = readCell s.mem o) ∧
        (Memory.wf s.mem → Memory.wf m)

/-- R91, whole: encoding, the one error, the sum for each destination, and all else unchanged. The
clause for register 0 is R91's corner case (d). -/
def Obligations.AddMeaning : Prop :=
  ∀ (a b : Byte) (s : State),
    encode (.add a b) = [0x03, a, b] ∧
    (∀ rest, decode (0x03 :: a :: b :: rest) = .ok (.add a b, 3)) ∧
    (3 ≤ a.toNat ∨ 3 ≤ b.toNat → exec (.add a b) s =
      .next { s with status := .errored, errCode := .invalidRegister, errInfo := 0 }) ∧
    ∀ v : Word, OperandReads s b v →
      (a = 0 → exec (.add a b) s = .next { s with x0 := s.x0 + 3 }) ∧
      (a = 1 → exec (.add a b) s =
        .next { s with x0 := s.x0 + 3, x1 := BitVec.ofInt 16 (s.x1.toInt + v.toInt) }) ∧
      (a = 2 → exec (.add a b) s =
        .next { s with x0 := s.x0 + 3, x2 := BitVec.ofInt 16 (s.x2.toInt + v.toInt) })

/-- R92, whole: encoding, the one error, the difference for each destination, and all else
unchanged. The clause for register 0 is R92's corner case (e). -/
def Obligations.SubMeaning : Prop :=
  ∀ (a b : Byte) (s : State),
    encode (.sub a b) = [0x04, a, b] ∧
    (∀ rest, decode (0x04 :: a :: b :: rest) = .ok (.sub a b, 3)) ∧
    (3 ≤ a.toNat ∨ 3 ≤ b.toNat → exec (.sub a b) s =
      .next { s with status := .errored, errCode := .invalidRegister, errInfo := 0 }) ∧
    ∀ v : Word, OperandReads s b v →
      (a = 0 → exec (.sub a b) s = .next { s with x0 := s.x0 + 3 }) ∧
      (a = 1 → exec (.sub a b) s =
        .next { s with x0 := s.x0 + 3, x1 := BitVec.ofInt 16 (s.x1.toInt - v.toInt) }) ∧
      (a = 2 → exec (.sub a b) s =
        .next { s with x0 := s.x0 + 3, x2 := BitVec.ofInt 16 (s.x2.toInt - v.toInt) })

/-- R93: encoding, the one error, the sum with the zero-extended constant for each destination, and
all else unchanged. That the sum wraps is the spec's decision D8 (log 8). -/
def Obligations.AddImmediateMeaning : Prop :=
  ∀ (reg k : Byte) (s : State),
    encode (.addImmediate reg k) = [0x05, reg, k] ∧
    (∀ rest, decode (0x05 :: reg :: k :: rest) = .ok (.addImmediate reg k, 3)) ∧
    (3 ≤ reg.toNat → exec (.addImmediate reg k) s =
      .next { s with status := .errored, errCode := .invalidRegister, errInfo := 0 }) ∧
    (reg = 0 → exec (.addImmediate reg k) s = .next { s with x0 := s.x0 + 3 }) ∧
    (reg = 1 → exec (.addImmediate reg k) s =
      .next { s with x0 := s.x0 + 3, x1 := BitVec.ofInt 16 (s.x1.toInt + k.toNat) }) ∧
    (reg = 2 → exec (.addImmediate reg k) s =
      .next { s with x0 := s.x0 + 3, x2 := BitVec.ofInt 16 (s.x2.toInt + k.toNat) })

/-- R95, whole: encoding, the one error, the taken and the untaken branch, and all else unchanged. -/
def Obligations.BranchIfEqMeaning : Prop :=
  ∀ (a b t : Byte) (s : State),
    encode (.branchIfEq a b t) = [0x06, a, b, t] ∧
    (∀ rest, decode (0x06 :: a :: b :: t :: rest) = .ok (.branchIfEq a b t, 4)) ∧
    (3 ≤ a.toNat ∨ 3 ≤ b.toNat → exec (.branchIfEq a b t) s =
      .next { s with status := .errored, errCode := .invalidRegister, errInfo := 0 }) ∧
    ∀ va vb : Word, OperandReads s a va → OperandReads s b vb →
      (va = vb → exec (.branchIfEq a b t) s = .next { s with x0 := BitVec.ofNat 16 t.toNat }) ∧
      (va ≠ vb → exec (.branchIfEq a b t) s = .next { s with x0 := s.x0 + 4 })

/-- R96 (the spec's decision D11, log 11): `halt` writes 20 to the pc and nothing else, and the step
after it, in a machine that was running, sets `HALTED` and nothing else. -/
def Obligations.HaltTakesTwoSteps : Prop :=
  ∀ s : State,
    encode .halt = [0xff] ∧ (∀ rest, decode (0xff :: rest) = .ok (.halt, 1)) ∧
    exec .halt s = .next { s with x0 := 20 } ∧
    (s.status = .running →
      step { s with x0 := 20 } = .next { s with x0 := 20, status := .halted })

/-- R97, whole: every byte that names no other variant decodes to `unknown`, of length 1, and
executing it raises `UnknownInstruction` and writes nothing else, at offset 19 too. -/
def Obligations.UnknownMeaning : Prop :=
  (∀ (b : Byte) (s : State), exec (.unknown b) s =
    .next { s with status := .errored, errCode := .unknownInstruction, errInfo := 0 }) ∧
  ∀ b : Byte, (b = 0x00 ∨ (0x07 ≤ b.toNat ∧ b.toNat ≤ 0xfe)) →
    encode (.unknown b) = [b] ∧ (∀ rest, decode (b :: rest) = .ok (.unknown b, 1)) ∧
    ∀ s : State, s.status = .running → 0 ≤ s.x0.toInt → s.x0.toInt < 20 →
      readCell s.mem s.x0.toNat = some b →
      step s = .next { s with status := .errored, errCode := .unknownInstruction, errInfo := 0 }

/-! ### Errors -/

/-- R104: each of the six instructions with a register operand, with any of its register bytes 3 or
more, raises `InvalidRegister` and nothing else happens, whatever memory holds. -/
def Obligations.InvalidRegisterBeforeAnything : Prop :=
  ∀ (s t : State) (a b k : Byte), 3 ≤ a.toNat →
    t = { s with status := .errored, errCode := .invalidRegister, errInfo := 0 } →
    exec (.loadWord a k) s = .next t ∧ exec (.storeWord a k) s = .next t ∧
    exec (.add a b) s = .next t ∧ exec (.add b a) s = .next t ∧
    exec (.sub a b) s = .next t ∧ exec (.sub b a) s = .next t ∧
    exec (.addImmediate a k) s = .next t ∧
    exec (.branchIfEq a b k) s = .next t ∧ exec (.branchIfEq b a k) s = .next t

/-- R101, R46: a step that newly records `OutOfBounds` ran a `load_word` or `store_word` whose access
leaves the memory, and the recorded offset is the lowest one outside. -/
def Obligations.OnlyLoadAndStoreRaiseOutOfBounds : Prop :=
  ∀ s t : State, step s = .next t → s.errCode ≠ .outOfBounds → t.errCode = .outOfBounds →
    ∃ (i : Instr) (n : Nat) (reg addr : Byte),
      decode (fetchSlice s.mem s.x0.toNat) = .ok (i, n) ∧
      (i = .loadWord reg addr ∨ i = .storeWord reg addr) ∧ 19 ≤ addr.toNat ∧
      t.errInfo = (if 20 ≤ addr.toNat then addr else 20)

/-- R106 (the spec's decision D6, log 5): errors are precise. A step that ends `ERRORED` has written
no register and no memory cell, so the pc is that of the faulting instruction. -/
def Obligations.ErrorsArePrecise : Prop :=
  ∀ s t : State, step s = .next t → t.status = .errored →
    t.x0 = s.x0 ∧ t.x1 = s.x1 ∧ t.x2 = s.x2 ∧ t.mem = s.mem

/-! ### Frames -/

/-- R14, R78: the four instructions with a data destination `d` leave every cell of memory and every
register but `d` and the pc as they were; the status registers change only where an error is raised,
and then no register changes. -/
def Obligations.RegisterWritersFrame : Prop :=
  ∀ (i : Instr) (d x : Byte) (s t : State),
    (i = .loadWord d x ∨ i = .add d x ∨ i = .sub d x ∨ i = .addImmediate d x) →
    exec i s = .next t →
    (∀ o, readCell t.mem o = readCell s.mem o) ∧
    (d ≠ 1 → t.x1 = s.x1) ∧ (d ≠ 2 → t.x2 = s.x2) ∧
    ((t.status = s.status ∧ t.errCode = s.errCode ∧ t.errInfo = s.errInfo) ∨
      (t.status = .errored ∧ (t.errCode = .invalidRegister ∨ t.errCode = .outOfBounds) ∧
        t.x0 = s.x0 ∧ t.x1 = s.x1 ∧ t.x2 = s.x2))

/-- R86: `store_word` leaves every cell but the two at its offset operand as it was, `x[1]` and
`x[2]` too; the status registers change only where an error is raised, and then nothing else does. -/
def Obligations.StoreWordFrame : Prop :=
  ∀ (reg addr : Byte) (s t : State), exec (.storeWord reg addr) s = .next t →
    (∀ o, o ≠ offsetOf addr → o ≠ offsetOf addr + 1 → readCell t.mem o = readCell s.mem o) ∧
    t.x1 = s.x1 ∧ t.x2 = s.x2 ∧
    ((t.status = s.status ∧ t.errCode = s.errCode ∧ t.errInfo = s.errInfo) ∨
      (t.status = .errored ∧ (t.errCode = .invalidRegister ∨ t.errCode = .outOfBounds) ∧
        t.x0 = s.x0 ∧ ∀ o, readCell t.mem o = readCell s.mem o))

/-- R95 to R97: `branch_if_eq`, `halt` and `unknown` store nothing and write no register but the pc;
`halt` writes no status register, `unknown` no pc, and `branch_if_eq` one or the other. -/
def Obligations.ControlFrame : Prop :=
  ∀ (i : Instr) (a b c : Byte) (s t : State),
    (i = .branchIfEq a b c ∨ i = .halt ∨ i = .unknown c) → exec i s = .next t →
    (∀ o, readCell t.mem o = readCell s.mem o) ∧ t.x1 = s.x1 ∧ t.x2 = s.x2 ∧
    ((t.status = s.status ∧ t.errCode = s.errCode ∧ t.errInfo = s.errInfo ∧ i ≠ .unknown c) ∨
      (t.status = .errored ∧ t.errInfo = 0 ∧ t.x0 = s.x0 ∧ i ≠ .halt))

/-- R23, R31: the only instruction that changes memory is `store_word`. -/
def Obligations.OnlyStoreWordChangesMemory : Prop :=
  ∀ s t : State, step s = .next t → t.mem ≠ s.mem →
    ∃ (reg addr : Byte) (n : Nat),
      decode (fetchSlice s.mem s.x0.toNat) = .ok (.storeWord reg addr, n) ∧
      reg.toNat < 3 ∧ addr.toNat ≤ 18

/-- R18: a step from a pc inside the memory leaves a pc above 20 only by a taken branch, whose
zero-extended target it then is; falling off the end leaves exactly 20. -/
def Obligations.OnlyATakenBranchPassesTwenty : Prop :=
  ∀ s t : State, s.status = .running → 0 ≤ s.x0.toInt → s.x0.toInt < 20 → step s = .next t →
    20 < t.x0.toInt →
    ∃ (a b target : Byte) (n : Nat) (v : Word),
      decode (fetchSlice s.mem s.x0.toNat) = .ok (.branchIfEq a b target, n) ∧
      OperandReads s a v ∧ OperandReads s b v ∧ t.x0.toInt = target.toNat

/-! ### Invariants and runs -/

/-- Every step keeps the canonical form of the memory (log 1), from every state that has it. -/
def Obligations.StepKeepsMemoryCanonical : Prop :=
  ∀ s t : State, MemoryCanonical s → step s = .next t → MemoryCanonical t

/-- R20 to R22 (the spec's decisions D9, D16, D20, log 9): every step keeps the status registers
consistent: a code exactly when `ERRORED`, the info 0 but for `OutOfBounds`, then 20 or more. -/
def Obligations.StepKeepsStatusConsistent : Prop :=
  ∀ s t : State, StatusConsistent s → step s = .next t → StatusConsistent t

/-- R18: every step keeps the pc in 0..255, so it never becomes negative, and no step from such a
state newly records `NegativePc`. -/
def Obligations.StepKeepsPcInRange : Prop :=
  ∀ s t : State, PcInRange s → step s = .next t →
    PcInRange t ∧ (s.errCode ≠ .negativePc → t.errCode ≠ .negativePc)

/-- With all 20 cells filled, as R124 asks, no step faults or is refused, and all cells stay filled. -/
def Obligations.LoadedStepNeverStops : Prop :=
  ∀ s : State, Loaded s → ∃ t, step s = .next t ∧ Loaded t

/-- Whatever a launched machine does for however many steps, it answers a next state and stays
launched: canonical memory, all cells filled, status registers consistent, pc in 0..255, and never
`NegativePc` (R18, R72, R81). -/
def Obligations.LaunchedRunNeverStops : Prop :=
  ∀ (k : Nat) (s : State), Launched s → ∃ t, runSteps k s = .next t ∧ Launched t

/-- The reset state has the canonical memory, consistent status registers and the pc in range. -/
def Obligations.ResetMeetsTheInvariants : Prop :=
  MemoryCanonical State.reset ∧ StatusConsistent State.reset ∧ PcInRange State.reset ∧
  State.reset.errCode ≠ .negativePc

/-- R120, R26 (the spec's decision D13, log 13): reset zeroes the registers and the status registers
from any state and does not touch memory. -/
def Obligations.ResetZeroesAllButMemory : Prop :=
  ∀ s : State, applyReset s = ⟨0, 0, 0, s.mem, .running, .none, 0⟩ ∧
    State.reset = ⟨0, 0, 0, [], .running, .none, 0⟩

/-- R124, R129: an image of 20 bytes loads and, after reset, every cell holds its byte and the
machine is launched, whatever state it was in before, as long as its memory was canonical. -/
def Obligations.LaunchOfTwentyBytes : Prop :=
  ∀ (image : List Byte) (s : State), MemoryCanonical s → image.length = 20 →
    ∃ t, launch image s = .next t ∧ Launched t ∧ t.status = .running ∧
      t.x0 = 0 ∧ t.x1 = 0 ∧ t.x2 = 0 ∧ ∀ o, o < 20 → readCell t.mem o = image[o]?

/-- R124 (the spec's decision D19, log 12): an image of any other length is refused, and no launch
comes of it. -/
def Obligations.ImageOfAnotherLengthIsRefused : Prop :=
  ∀ (image : List Byte) (s : State), image.length ≠ 20 →
    loadImage image s = .refused (.imageLength image.length) ∧
    launch image s = .refused (.imageLength image.length)

/-- The model's own stops (log 1): no body is ever refused, and the one body that can fault is a
`load_word` with a valid register, in range, one of whose two cells nothing has filled; there it does. -/
def Obligations.BodiesStopOnlyAtUnloadedCells : Prop :=
  ∀ (i : Instr) (s : State),
    (∀ r, exec i s ≠ .refused r) ∧
    ∀ f, exec i s = .fault f ↔
      f = .cellNotLoaded ∧ ∃ reg addr : Byte, i = .loadWord reg addr ∧ reg.toNat < 3 ∧
        addr.toNat ≤ 18 ∧
        (readCell s.mem addr.toNat = none ∨ readCell s.mem (addr.toNat + 1) = none)

/-! ### Encoding -/

/-- R56, R58: decoding the encoding of a well-formed instruction gives it back, with its length, at
every value of every operand byte and whatever bytes follow. -/
def Obligations.DecodeOfEncode : Prop :=
  ∀ (i : Instr) (rest : List Byte), i.wf = true →
    decode (encode i ++ rest) = .ok (i, (encode i).length)

/-- R56: whatever decodes is well formed, and its encoding is exactly the bytes it was decoded from. -/
def Obligations.EncodeOfDecode : Prop :=
  ∀ (bytes : List Byte) (i : Instr) (n : Nat), decode bytes = .ok (i, n) →
    i.wf = true ∧ n = (encode i).length ∧ ∃ rest, bytes = encode i ++ rest

/-- R51, whole: the length is a function of the opcode byte: 3 for 0x01 to 0x05, 4 for 0x06, else 1. -/
def Obligations.LengthByOpcode : Prop :=
  ∀ op : Byte,
    (1 ≤ op.toNat → op.toNat ≤ 5 → instrLength op = 3) ∧
    (op.toNat = 6 → instrLength op = 4) ∧
    (op.toNat = 0 ∨ 7 ≤ op.toNat → instrLength op = 1)

/-- R56, R57 (the spec's decision D3, log 4): a non-empty sequence decodes, unless it is shorter than
its opcode's length, and then the answer is `Truncated`. -/
def Obligations.DecodeIsTotal : Prop :=
  ∀ (op : Byte) (rest : List Byte),
    (rest.length + 1 < instrLength op → decode (op :: rest) = .error .truncated) ∧
    (instrLength op ≤ rest.length + 1 → ∃ i, decode (op :: rest) = .ok (i, instrLength op))

/-- Words written out from R55's table and the decoder vectors of 95_test_vectors section 2. -/
def Obligations.WrittenWordsDecode : Prop :=
  decode [0x01, 0x01, 0x10] = .ok (.loadWord 1 0x10, 3) ∧
  decode [0x02, 0x00, 0x13] = .ok (.storeWord 0 0x13, 3) ∧
  decode [0x03, 0x02, 0x01] = .ok (.add 2 1, 3) ∧
  decode [0x04, 0xff, 0x80] = .ok (.sub 255 128, 3) ∧
  decode [0x05, 0x01, 0xff] = .ok (.addImmediate 1 255, 3) ∧
  decode [0x06, 0x01, 0x02, 0x07] = .ok (.branchIfEq 1 2 7, 4) ∧
  decode [0xff, 0x01, 0x02] = .ok (.halt, 1) ∧
  decode [0x07, 0x01, 0x02, 0x03] = .ok (.unknown 0x07, 1) ∧
  decode [0x06, 0x01, 0x02] = .error .truncated

/-- R57: fetch reads no cell past offset 19, even of a memory that lists one: two memories that agree
on the 20 cells give the same fetch at every offset inside. -/
def Obligations.FetchReadsOnlyTheTwentyCells : Prop :=
  ∀ (m m' : Memory) (p : Nat), p < 20 →
    (∀ o, o < 20 → readCell m o = readCell m' o) → fetch m p = fetch m' p

/-! ### Arithmetic and memory -/

/-- R90, whole: sums and differences are the exact integers reduced modulo 65536 into
-32768..32767; subtracting what was added gives the first operand back; the three examples. -/
def Obligations.AluWrapsModulo65536 : Prop :=
  (∀ a b : Word,
    (∃ k : Int, (aluAdd a b).toInt = a.toInt + b.toInt + 65536 * k) ∧
    (∃ k : Int, (aluSub a b).toInt = a.toInt - b.toInt + 65536 * k) ∧
    (-32768 ≤ (aluAdd a b).toInt ∧ (aluAdd a b).toInt ≤ 32767) ∧
    (-32768 ≤ (aluSub a b).toInt ∧ (aluSub a b).toInt ≤ 32767) ∧
    aluSub (aluAdd a b) b = a) ∧
  (aluAdd 32767 1).toInt = -32768 ∧ (aluSub (-32768) 1).toInt = 32767 ∧
  (aluSub 0 (-32768)).toInt = -32768

/-- R90's inverse law on the machine (95_test_vectors S-F): `add` and then `sub` with two different
registers other than the pc restore both. -/
def Obligations.SubUndoesAdd : Prop :=
  ∀ s t u : State,
    (exec (.add 1 2) s = .next t → exec (.sub 1 2) t = .next u → u.x1 = s.x1 ∧ u.x2 = s.x2) ∧
    (exec (.add 2 1) s = .next t → exec (.sub 2 1) t = .next u → u.x1 = s.x1 ∧ u.x2 = s.x2)

/-- R86 (e), R37, R42: a `load_word` right after a `store_word` to the same offset returns the
stored value, into either register. -/
def Obligations.LoadAfterStoreReturnsTheValue : Prop :=
  ∀ (s t : State) (reg addr : Byte) (v : Word), OperandReads s reg v → addr.toNat ≤ 18 →
    exec (.storeWord reg addr) s = .next t →
    exec (.loadWord 1 addr) t = .next { t with x0 := t.x0 + 3, x1 := v } ∧
    exec (.loadWord 2 addr) t = .next { t with x0 := t.x0 + 3, x2 := v }

/-- R44: the bytes that a `store_word` stored are what a later fetch of that offset reads. -/
def Obligations.StoredBytesAreFetched : Prop :=
  ∀ (s t : State) (reg addr : Byte) (v : Word), OperandReads s reg v → addr.toNat ≤ 18 →
    exec (.storeWord reg addr) s = .next t →
    ∃ tail, fetchSlice t.mem addr.toNat =
      BitVec.ofNat 8 v.toNat :: BitVec.ofNat 8 (v.toNat / 256) :: tail

/-- R34, whole: `MemRead` of one and of two bytes, for any offset operand: the lowest offset that is
20 or more, else the little-endian value of the cells. -/
def Obligations.MemReadOfOneAndTwoBytes : Prop :=
  ∀ (m : Memory) (addr : Nat), addr ≤ 255 →
    (20 ≤ addr → memRead m addr 1 = .outOfBounds addr ∧ memRead m addr 2 = .outOfBounds addr) ∧
    (addr = 19 → memRead m addr 2 = .outOfBounds 20) ∧
    (∀ lo, addr ≤ 19 → readCell m addr = some lo → memRead m addr 1 = .done lo.toNat) ∧
    (∀ lo hi, addr ≤ 18 → readCell m addr = some lo → readCell m (addr + 1) = some hi →
      memRead m addr 2 = .done (lo.toNat + 256 * hi.toNat))

/-- R35 (the spec's decision D6, log 5): `MemWrite` of one and of two bytes: an offset of 20 or more
is reported and no memory comes of it; else the low byte goes to the lower cell and no other cell
changes. -/
def Obligations.MemWriteOfOneAndTwoBytes : Prop :=
  ∀ (m : Memory) (addr v : Nat), addr ≤ 255 →
    (20 ≤ addr → memWrite m addr 1 v = .outOfBounds addr ∧
      memWrite m addr 2 v = .outOfBounds addr) ∧
    (addr = 19 → memWrite m addr 2 v = .outOfBounds 20) ∧
    (addr ≤ 19 → ∃ m', memWrite m addr 1 v = .done m' ∧
      readCell m' addr = some (BitVec.ofNat 8 v) ∧
      ∀ o, o ≠ addr → readCell m' o = readCell m o) ∧
    (addr ≤ 18 → ∃ m', memWrite m addr 2 v = .done m' ∧
      readCell m' addr = some (BitVec.ofNat 8 v) ∧
      readCell m' (addr + 1) = some (BitVec.ofNat 8 (v / 256)) ∧
      ∀ o, o ≠ addr → o ≠ addr + 1 → readCell m' o = readCell m o)

/-- The canonical form (log 1) makes equal memories equal data. -/
def Obligations.CanonicalMemoriesAreEqualData : Prop :=
  ∀ m m' : Memory, Memory.wf m → Memory.wf m' → (∀ o, readCell m o = readCell m' o) → m = m'

/-! ### Host and disassembler -/

/-- R20, R21, R100 (the spec's decisions D9, D16, log 9): the tables of the words that the host reads
in `STATUS` and `ERR_CODE`. So it never reads 3 in the one nor 6 or 7 in the other, and where the
status registers are consistent it reads code 0 exactly when the machine is not `ERRORED`. -/
def Obligations.StatusWordsAreLegal : Prop :=
  ∀ s : State,
    (s.status = .running → statusWord s = 0) ∧
    (s.status = .halted → statusWord s = 1) ∧
    (s.status = .errored → statusWord s = 2) ∧
    (s.errCode = .none → errCodeWord s = 0) ∧
    (s.errCode = .outOfBounds → errCodeWord s = 1) ∧
    (s.errCode = .negativePc → errCodeWord s = 2) ∧
    (s.errCode = .unknownInstruction → errCodeWord s = 3) ∧
    (s.errCode = .invalidRegister → errCodeWord s = 4) ∧
    (s.errCode = .truncated → errCodeWord s = 5) ∧
    statusWord s ≠ 3 ∧ (errCodeWord s).toNat ≤ 5 ∧
    (StatusConsistent s → (errCodeWord s = 0 ↔ statusWord s ≠ 2))

/-- R127, R32: the output word is the little-endian word at 0x0e and 0x0f, and it is what a
`store_word` to 0x0e has stored there. -/
def Obligations.OutputWordIsWhatWasStored : Prop :=
  (∀ (s : State) (lo hi : Byte), readCell s.mem 14 = some lo → readCell s.mem 15 = some hi →
    outputWord s = some (BitVec.ofNat 16 (lo.toNat + 256 * hi.toNat))) ∧
  ∀ (s t : State) (reg : Byte) (v : Word), OperandReads s reg v →
    exec (.storeWord reg 0x0e) s = .next t → outputWord t = some v

/-- R65: the sizes of the instructions that a disassembly produced add up to the bytes consumed, for
every prefix of it, and their encodings are those bytes; for the whole sequence both are all of it. -/
def Obligations.DisassemblySizesAddUp : Prop :=
  ∀ (bytes : List Byte) (rows : List (Instr × Nat)), sweep bytes = .ok rows →
    (∀ j, ∃ consumed rest, bytes = consumed ++ rest ∧
      consumed = ((rows.take j).map fun row => encode row.1).flatten ∧
      ((rows.take j).map fun row => row.2).sum = consumed.length) ∧
    (rows.map fun row => row.2).sum = bytes.length

/-- R66, R64 (the spec's decision D17, log 15): a disassembly that answers no renderings answers
`Truncated`, and then a tail of the bytes, behind whole well-formed instructions, is a truncated one. -/
def Obligations.DisassemblyFailsOnlyAtATruncatedTail : Prop :=
  ∀ (bytes : List Byte) (e : DecodeError), disassemble bytes = .error e →
    e = .truncated ∧ ∃ (whole : List Instr) (tail : List Byte), (∀ i ∈ whole, i.wf = true) ∧
      bytes = (whole.map encode).flatten ++ tail ∧ decode tail = .error .truncated

/-- The examples of R62's table. -/
def Obligations.RenderingsOfTheTable : Prop :=
  render (.loadWord 1 0x10) = "load_word r1 (0x10)" ∧
  render (.storeWord 1 0x0e) = "store_word r1 (0x0e)" ∧
  render (.add 1 2) = "add r1 r2" ∧
  render (.sub 1 2) = "sub r1 r2" ∧
  render (.addImmediate 1 0x02) = "add_immediate r1 (0x02)" ∧
  render (.branchIfEq 1 2 0x07) = "branch_if_eq r1 r2 0x07" ∧
  render .halt = "halt" ∧
  render (.unknown 0xa1) = "0xa1"
end

