-- ==== Sys2Proof/Laws/Decode.lean ====
section
/-! SUPPORT. The laws of the decoder's parts: the lengths, and what `decode` can answer. -/

namespace Sys2Proof

/-- The three lengths (R51). -/
theorem instrLength_cases (op : Byte) :
    instrLength op = 1 ∨ instrLength op = 3 ∨ instrLength op = 4 := by
  unfold instrLength
  split
  · exact .inr (.inl rfl)
  · split
    · exact .inr (.inr rfl)
    · exact .inl rfl

theorem instrLength_pos (op : Byte) : 0 < instrLength op := by
  rcases instrLength_cases op with h | h | h <;> omega

/-- All that `decode` can answer on a non-empty sequence (R56, R57). -/
theorem decode_cons (op : Byte) (operands : List Byte) :
    decode (op :: operands) =
      if operands.length + 1 < instrLength op then .error .truncated
      else .ok (selectVariant op (operands.getD 0 0) (operands.getD 1 0) (operands.getD 2 0),
        instrLength op) := rfl

/-- What `decode` answers is taken from a first byte whose length the sequence has. -/
theorem decode_ok {bytes : List Byte} {i : Instr} {n : Nat} (h : decode bytes = .ok (i, n)) :
    ∃ op operands, bytes = op :: operands ∧ n = instrLength op ∧ n ≤ operands.length + 1 ∧
      i = selectVariant op (operands.getD 0 0) (operands.getD 1 0) (operands.getD 2 0) := by
  cases bytes with
  | nil => simp [decode] at h
  | cons op operands =>
    rw [decode_cons] at h
    split at h
    · cases h
    · next hn =>
      cases h
      exact ⟨op, operands, rfl, rfl, by omega, rfl⟩

/-- `selectVariant` never makes an ill-formed term: `unknown` is the fall-through. -/
theorem selectVariant_wf (op b1 b2 b3 : Byte) : (selectVariant op b1 b2 b3).wf = true := by
  unfold selectVariant
  split_ifs <;> simp_all [Instr.wf, namedOpcodes]

end Sys2Proof
end

