-- ==== Sys2Proof/Laws/Memory.lean ====
section
/-! SUPPORT. The laws of memory: read after write, the canonical form kept by every operation, what a
bounds-checked access can answer, and the slice that fetch reads. -/

namespace Sys2Proof.Machine

@[simp] theorem memSize_eq : Config.memSize = 20 := rfl
@[simp] theorem haltPc_eq : Config.haltPc = 20 := rfl

/-! ### One cell -/

/-- A cell reads what was last written to it, and a write leaves every other cell alone. -/
theorem readCell_writeCell (m : Memory) (o a : Nat) (b : Byte) :
    readCell (writeCell m o b) a = if o = a then some b else readCell m a := by
  induction m with
  | nil => simp [writeCell, readCell]
  | cons c m ih =>
    obtain ⟨k, v⟩ := c
    simp only [writeCell]
    split
    · simp [readCell]
    · split
      · next h => subst h; simp only [readCell]; split <;> rfl
      · simp only [readCell, ih]
        split
        · split
          · omega
          · rfl
        · rfl

@[simp] theorem readCell_writeCell_same (m : Memory) (o : Nat) (b : Byte) :
    readCell (writeCell m o b) o = some b := by simp [readCell_writeCell]

theorem readCell_writeCell_ne (m : Memory) {o a : Nat} (b : Byte) (h : o ≠ a) :
    readCell (writeCell m o b) a = readCell m a := by simp [readCell_writeCell, h]

/-- An entry of the memory after a write is the new one or an old one. -/
theorem mem_writeCell {m : Memory} {o : Nat} {b : Byte} {c : Host.Cell}
    (h : c ∈ writeCell m o b) : c = (o, b) ∨ c ∈ m := by
  induction m with
  | nil => simpa [writeCell] using h
  | cons d m ih =>
    obtain ⟨k, v⟩ := d
    simp only [writeCell] at h
    split at h
    · simpa using h
    · split at h
      · rcases List.mem_cons.mp h with h | h
        · exact .inl h
        · exact .inr (List.mem_cons_of_mem _ h)
      · rcases List.mem_cons.mp h with h | h
        · exact .inr (h ▸ List.mem_cons_self)
        · exact (ih h).imp id (List.mem_cons_of_mem _)

/-- A write to a cell of the memory keeps the canonical form. -/
theorem writeCell_wf {m : Memory} {o : Nat} (b : Byte) (hm : Memory.wf m)
    (ho : o < Config.memSize) : Memory.wf (writeCell m o b) := by
  refine ⟨?_, fun c hc => ?_⟩
  · obtain ⟨hp, -⟩ := hm
    induction m with
    | nil => simp [writeCell]
    | cons d m ih =>
      obtain ⟨k, v⟩ := d
      obtain ⟨hd, htl⟩ := List.pairwise_cons.mp hp
      simp only [writeCell]
      split
      · next h =>
        refine List.pairwise_cons.mpr ⟨fun c hc => ?_, hp⟩
        rcases List.mem_cons.mp hc with rfl | hc
        · exact h
        · exact Nat.lt_trans h (hd c hc)
      · split
        · next h => subst h; exact List.pairwise_cons.mpr ⟨hd, htl⟩
        · refine List.pairwise_cons.mpr ⟨fun c hc => ?_, ih htl⟩
          rcases mem_writeCell hc with rfl | hc
          · simp only; omega
          · exact hd c hc
  · rcases mem_writeCell hc with rfl | hc
    · exact ho
    · exact hm.2 c hc

/-- The reset state's memory, which lists nothing, is canonical. -/
theorem reset_memory_wf : Memory.wf State.reset.mem := by
  constructor <;> simp [State.reset]

/-! ### Accesses of several cells -/

theorem writeLittleEndian_two (m : Memory) (addr v : Nat) :
    writeLittleEndian m addr 2 v =
      writeCell (writeCell m addr (BitVec.ofNat 8 v)) (addr + 1) (BitVec.ofNat 8 (v / 256)) := rfl

theorem writeLittleEndian_wf {m : Memory} {addr n : Nat} (v : Nat) (hm : Memory.wf m)
    (h : addr + n ≤ Config.memSize) : Memory.wf (writeLittleEndian m addr n v) := by
  induction n generalizing m addr v with
  | zero => exact hm
  | succ n ih => exact ih _ (writeCell_wf _ hm (by omega)) (by omega)

theorem writeBytes_wf {m : Memory} {o : Nat} (bs : List Byte) (hm : Memory.wf m) :
    Memory.wf (writeBytes m o bs) := by
  induction bs generalizing m o with
  | nil => exact hm
  | cons b bs ih =>
    simp only [writeBytes]
    split
    · next h => exact ih (writeCell_wf b hm h)
    · exact hm

/-- What `writeBytes` leaves in each cell of the memory. -/
theorem readCell_writeBytes (m : Memory) (o : Nat) (bs : List Byte) (a : Nat) :
    readCell (writeBytes m o bs) a =
      if o ≤ a ∧ a < o + bs.length ∧ a < Config.memSize then bs[a - o]? else readCell m a := by
  induction bs generalizing m o with
  | nil => simp [writeBytes]; omega
  | cons b bs ih =>
    simp only [writeBytes]
    split
    · rw [ih, readCell_writeCell]
      rcases Nat.lt_trichotomy a o with h | h | h
      · rw [if_neg (by omega), if_neg (by omega), if_neg (by omega)]
      · subst h
        rw [if_neg (by omega), if_pos rfl, if_pos (by simp; omega)]
        simp
      · obtain ⟨k, rfl⟩ : ∃ k, a = o + 1 + k := ⟨a - (o + 1), by omega⟩
        rw [if_neg (show ¬ o = o + 1 + k by omega)]
        have e : o + 1 + k - o = k + 1 := by omega
        simp only [List.length_cons, e, List.getElem?_cons_succ, Nat.add_sub_cancel_left]
        refine if_congr ?_ rfl rfl
        omega
    · rw [if_neg (by omega)]

/-- The bounds checker finds nothing exactly when the whole access lies in the memory (R33). -/
theorem firstOutside_eq_none {addr n : Nat} :
    firstOutside addr n = none ↔ n = 0 ∨ addr + n ≤ Config.memSize := by
  induction n generalizing addr with
  | zero => simp [firstOutside]
  | succ n ih =>
    simp only [firstOutside, memSize_eq] at ih ⊢
    split
    · simp; omega
    · rw [ih]; omega

/-- A two-byte access is in range, or reports its lowest offset of 20 or more (R36). -/
theorem firstOutside_two (addr : Nat) :
    firstOutside addr 2 =
      if addr ≤ 18 then none else if addr = 19 then some 20 else some addr := by
  simp only [firstOutside, Config.memSize]
  split_ifs <;> first | rfl | (congr 1; omega)

/-- All that a two-byte read can answer (R34). -/
theorem memRead_two (m : Memory) (addr : Nat) :
    memRead m addr 2 =
      if addr ≤ 18 then
        match readCell m addr, readCell m (addr + 1) with
        | some lo, some hi => .done (lo.toNat + 256 * hi.toNat)
        | _, _ => .notLoaded
      else if addr = 19 then .outOfBounds 20 else .outOfBounds addr := by
  unfold memRead
  rw [firstOutside_two]
  by_cases h : addr ≤ 18
  · simp only [h, if_true, readLittleEndian]
    cases readCell m addr <;> cases readCell m (addr + 1) <;> simp
  · by_cases h' : addr = 19 <;> simp [h, h']

/-- All that a two-byte write can answer (R35). -/
theorem memWrite_two (m : Memory) (addr v : Nat) :
    memWrite m addr 2 v =
      if addr ≤ 18 then
        .done (writeCell (writeCell m addr (BitVec.ofNat 8 v)) (addr + 1) (BitVec.ofNat 8 (v / 256)))
      else if addr = 19 then .outOfBounds 20 else .outOfBounds addr := by
  unfold memWrite
  rw [firstOutside_two]
  by_cases h : addr ≤ 18
  · simp [h, writeLittleEndian_two]
  · by_cases h' : addr = 19 <;> simp [h, h']

/-- A bounds-checked write that is done keeps the canonical form. -/
theorem memWrite_wf {m m' : Memory} {addr v : Nat} (hm : Memory.wf m)
    (h : memWrite m addr 2 v = .done m') : Memory.wf m' := by
  rw [memWrite_two] at h
  split at h
  · next ha =>
    cases h
    exact writeCell_wf _ (writeCell_wf _ hm (by simp; omega)) (by simp; omega)
  · split at h <;> cases h

/-! ### The slice of fetch -/

/-- The slice holds exactly the cells from its start, as far as they are loaded. -/
theorem loadedFrom_getElem {m : Memory} {p n k : Nat} (h : k < (loadedFrom m p n).length) :
    readCell m (p + k) = some (loadedFrom m p n)[k] := by
  induction n generalizing p k with
  | zero => simp [loadedFrom] at h
  | succ n ih =>
    cases hb : readCell m p with
    | none => simp [loadedFrom, hb] at h
    | some b =>
      simp only [loadedFrom, hb] at h ⊢
      cases k with
      | zero => simpa using hb
      | succ k =>
        rw [show p + (k + 1) = p + 1 + k by omega]
        exact ih (by simpa using h)

theorem loadedFrom_length_le (m : Memory) (p n : Nat) : (loadedFrom m p n).length ≤ n := by
  induction n generalizing p with
  | zero => simp [loadedFrom]
  | succ n ih =>
    simp only [loadedFrom]
    split
    · simpa using ih (p + 1)
    · simp

/-- Cells that are loaded from `p` up are the first bytes of the slice. -/
theorem loadedFrom_prefix {m : Memory} {p n : Nat} {bs : List Byte} (hn : bs.length ≤ n)
    (h : ∀ k, (hk : k < bs.length) → readCell m (p + k) = some bs[k]) :
    ∃ tail, loadedFrom m p n = bs ++ tail := by
  induction bs generalizing p n with
  | nil => exact ⟨_, rfl⟩
  | cons b bs ih =>
    cases n with
    | zero => simp at hn
    | succ n =>
      have hb : readCell m p = some b := h 0 (Nat.succ_pos _)
      obtain ⟨tail, ht⟩ := ih (p := p + 1) (n := n) (by simpa using hn) (fun k hk => by
        have := h (k + 1) (by simpa using hk)
        rw [show p + (k + 1) = p + 1 + k by omega] at this
        simpa using this)
      exact ⟨tail, by simp [loadedFrom, hb, ht]⟩

end Sys2Proof.Machine
end

