-- ==== Sys2Proof/Laws/State.lean ====
section
/-! SUPPORT. One lemma per field of the state per update, so that no proof unfolds a record update. -/

namespace Sys2Proof.Machine

@[simp] theorem setPc_x0 (v : Word) (s : State) :
    (setPc v s).x0 = v := rfl
@[simp] theorem setPc_x1 (v : Word) (s : State) :
    (setPc v s).x1 = s.x1 := rfl
@[simp] theorem setPc_x2 (v : Word) (s : State) :
    (setPc v s).x2 = s.x2 := rfl
@[simp] theorem setPc_mem (v : Word) (s : State) :
    (setPc v s).mem = s.mem := rfl
@[simp] theorem setPc_status (v : Word) (s : State) :
    (setPc v s).status = s.status := rfl
@[simp] theorem setPc_errCode (v : Word) (s : State) :
    (setPc v s).errCode = s.errCode := rfl
@[simp] theorem setPc_errInfo (v : Word) (s : State) :
    (setPc v s).errInfo = s.errInfo := rfl

@[simp] theorem raiseError_x0 (e : Error) (s : State) :
    (raiseError e s).x0 = s.x0 := rfl
@[simp] theorem raiseError_x1 (e : Error) (s : State) :
    (raiseError e s).x1 = s.x1 := rfl
@[simp] theorem raiseError_x2 (e : Error) (s : State) :
    (raiseError e s).x2 = s.x2 := rfl
@[simp] theorem raiseError_mem (e : Error) (s : State) :
    (raiseError e s).mem = s.mem := rfl
@[simp] theorem raiseError_status (e : Error) (s : State) :
    (raiseError e s).status = .errored := rfl
@[simp] theorem raiseError_errCode (e : Error) (s : State) :
    (raiseError e s).errCode = errorCode e := rfl
@[simp] theorem raiseError_errInfo (e : Error) (s : State) :
    (raiseError e s).errInfo = errorInfo e := rfl

@[simp] theorem haltSuccess_x0 (s : State) :
    (haltSuccess s).x0 = s.x0 := rfl
@[simp] theorem haltSuccess_x1 (s : State) :
    (haltSuccess s).x1 = s.x1 := rfl
@[simp] theorem haltSuccess_x2 (s : State) :
    (haltSuccess s).x2 = s.x2 := rfl
@[simp] theorem haltSuccess_mem (s : State) :
    (haltSuccess s).mem = s.mem := rfl
@[simp] theorem haltSuccess_status (s : State) :
    (haltSuccess s).status = .halted := rfl
@[simp] theorem haltSuccess_errCode (s : State) :
    (haltSuccess s).errCode = s.errCode := rfl
@[simp] theorem haltSuccess_errInfo (s : State) :
    (haltSuccess s).errInfo = s.errInfo := rfl

@[simp] theorem applyReset_x0 (s : State) :
    (applyReset s).x0 = 0 := rfl
@[simp] theorem applyReset_x1 (s : State) :
    (applyReset s).x1 = 0 := rfl
@[simp] theorem applyReset_x2 (s : State) :
    (applyReset s).x2 = 0 := rfl
@[simp] theorem applyReset_mem (s : State) :
    (applyReset s).mem = s.mem := rfl
@[simp] theorem applyReset_status (s : State) :
    (applyReset s).status = .running := rfl
@[simp] theorem applyReset_errCode (s : State) :
    (applyReset s).errCode = .none := rfl
@[simp] theorem applyReset_errInfo (s : State) :
    (applyReset s).errInfo = 0 := rfl

@[simp] theorem writeReg_x0_x0 (v : Word) (s : State) :
    (writeReg .x0 v s).x0 = v := rfl
@[simp] theorem writeReg_x0_x1 (v : Word) (s : State) :
    (writeReg .x0 v s).x1 = s.x1 := rfl
@[simp] theorem writeReg_x0_x2 (v : Word) (s : State) :
    (writeReg .x0 v s).x2 = s.x2 := rfl
@[simp] theorem writeReg_x0_mem (v : Word) (s : State) :
    (writeReg .x0 v s).mem = s.mem := rfl
@[simp] theorem writeReg_x0_status (v : Word) (s : State) :
    (writeReg .x0 v s).status = s.status := rfl
@[simp] theorem writeReg_x0_errCode (v : Word) (s : State) :
    (writeReg .x0 v s).errCode = s.errCode := rfl
@[simp] theorem writeReg_x0_errInfo (v : Word) (s : State) :
    (writeReg .x0 v s).errInfo = s.errInfo := rfl

@[simp] theorem writeReg_x1_x0 (v : Word) (s : State) :
    (writeReg .x1 v s).x0 = s.x0 := rfl
@[simp] theorem writeReg_x1_x1 (v : Word) (s : State) :
    (writeReg .x1 v s).x1 = v := rfl
@[simp] theorem writeReg_x1_x2 (v : Word) (s : State) :
    (writeReg .x1 v s).x2 = s.x2 := rfl
@[simp] theorem writeReg_x1_mem (v : Word) (s : State) :
    (writeReg .x1 v s).mem = s.mem := rfl
@[simp] theorem writeReg_x1_status (v : Word) (s : State) :
    (writeReg .x1 v s).status = s.status := rfl
@[simp] theorem writeReg_x1_errCode (v : Word) (s : State) :
    (writeReg .x1 v s).errCode = s.errCode := rfl
@[simp] theorem writeReg_x1_errInfo (v : Word) (s : State) :
    (writeReg .x1 v s).errInfo = s.errInfo := rfl

@[simp] theorem writeReg_x2_x0 (v : Word) (s : State) :
    (writeReg .x2 v s).x0 = s.x0 := rfl
@[simp] theorem writeReg_x2_x1 (v : Word) (s : State) :
    (writeReg .x2 v s).x1 = s.x1 := rfl
@[simp] theorem writeReg_x2_x2 (v : Word) (s : State) :
    (writeReg .x2 v s).x2 = v := rfl
@[simp] theorem writeReg_x2_mem (v : Word) (s : State) :
    (writeReg .x2 v s).mem = s.mem := rfl
@[simp] theorem writeReg_x2_status (v : Word) (s : State) :
    (writeReg .x2 v s).status = s.status := rfl
@[simp] theorem writeReg_x2_errCode (v : Word) (s : State) :
    (writeReg .x2 v s).errCode = s.errCode := rfl
@[simp] theorem writeReg_x2_errInfo (v : Word) (s : State) :
    (writeReg .x2 v s).errInfo = s.errInfo := rfl

@[simp] theorem writeReg_mem (r : Reg) (v : Word) (s : State) :
    (writeReg r v s).mem = s.mem := by cases r <;> rfl
@[simp] theorem writeReg_status (r : Reg) (v : Word) (s : State) :
    (writeReg r v s).status = s.status := by cases r <;> rfl
@[simp] theorem writeReg_errCode (r : Reg) (v : Word) (s : State) :
    (writeReg r v s).errCode = s.errCode := by cases r <;> rfl
@[simp] theorem writeReg_errInfo (r : Reg) (v : Word) (s : State) :
    (writeReg r v s).errInfo = s.errInfo := by cases r <;> rfl

@[simp] theorem writeBack_mem (r : Reg) (v : Word) (s : State) :
    (writeBack r v s).mem = s.mem := by cases r <;> rfl
@[simp] theorem writeBack_status (r : Reg) (v : Word) (s : State) :
    (writeBack r v s).status = s.status := by cases r <;> rfl
@[simp] theorem writeBack_errCode (r : Reg) (v : Word) (s : State) :
    (writeBack r v s).errCode = s.errCode := by cases r <;> rfl
@[simp] theorem writeBack_errInfo (r : Reg) (v : Word) (s : State) :
    (writeBack r v s).errInfo = s.errInfo := by cases r <;> rfl
@[simp] theorem writeBack_x0 (r : Reg) (v : Word) (s : State) :
    (writeBack r v s).x0 = s.x0 + 3 := rfl

/-- A data result for register 0 leaves nothing but the pc's advance (R13, R80). -/
@[simp] theorem writeBack_reg_x0 (v : Word) (s : State) :
    writeBack .x0 v s = { s with x0 := s.x0 + 3 } := rfl
@[simp] theorem writeBack_reg_x1 (v : Word) (s : State) :
    writeBack .x1 v s = { s with x0 := s.x0 + 3, x1 := v } := rfl
@[simp] theorem writeBack_reg_x2 (v : Word) (s : State) :
    writeBack .x2 v s = { s with x0 := s.x0 + 3, x2 := v } := rfl

@[simp] theorem readReg_x0 (s : State) : readReg s .x0 = s.x0 := rfl
@[simp] theorem readReg_x1 (s : State) : readReg s .x1 = s.x1 := rfl
@[simp] theorem readReg_x2 (s : State) : readReg s .x2 = s.x2 := rfl

/-- A register other than the pc and the written one keeps its value. -/
theorem readReg_writeBack_of_ne {r q : Reg} (v : Word) (s : State) (hq : q ≠ .x0) (hr : q ≠ r) :
    readReg (writeBack r v s) q = readReg s q := by
  cases r <;> cases q <;> first | rfl | exact absurd rfl hq | exact absurd rfl hr

/-- The written register, unless it is the pc, holds the result. -/
theorem readReg_writeBack_self {r : Reg} (v : Word) (s : State) (hr : r ≠ .x0) :
    readReg (writeBack r v s) r = v := by
  cases r <;> first | rfl | exact absurd rfl hr

end Sys2Proof.Machine
end

