-- ==== Sys2Proof/Laws/Operands.lean ====
section
/-! SUPPORT. What each shared operation over operands, the ALU and the comparator can answer, said
once. -/

namespace Sys2Proof.Machine

/-! ### Register operands -/

@[simp] theorem regOf_zero : regOf 0#8 = some .x0 := rfl
@[simp] theorem regOf_one : regOf 1#8 = some .x1 := rfl
@[simp] theorem regOf_two : regOf 2#8 = some .x2 := rfl

/-- A byte names no register exactly when it is 3 or more (R15). -/
theorem regOf_eq_none {b : Byte} : regOf b = none ↔ 3 ≤ b.toNat := by
  unfold regOf
  split_ifs <;> simp_all [← BitVec.toNat_inj]; omega

/-- A register operand that passes the check is one of the three valid bytes. -/
theorem regOf_eq_some {b : Byte} {r : Reg} (h : regOf b = some r) :
    (b = 0 ∧ r = .x0) ∨ (b = 1 ∧ r = .x1) ∨ (b = 2 ∧ r = .x2) := by
  unfold regOf at h
  split_ifs at h <;> simp_all

/-- All that an instruction with one register operand can answer. -/
theorem withReg_next {b : Byte} {s t : State} {body : Reg → Result}
    (h : withReg b s body = .next t) :
    (regOf b = none ∧ t = raiseError .invalidRegister s) ∨
    ∃ r, regOf b = some r ∧ body r = .next t := by
  unfold withReg at h
  split at h
  · next r hr => exact .inr ⟨r, hr, h⟩
  · next hr => cases h; exact .inl ⟨hr, rfl⟩

/-- All that an instruction with two register operands can answer. -/
theorem withRegs_next {a b : Byte} {s t : State} {body : Reg → Reg → Result}
    (h : withRegs a b s body = .next t) :
    ((regOf a = none ∨ regOf b = none) ∧ t = raiseError .invalidRegister s) ∨
    ∃ ra rb, regOf a = some ra ∧ regOf b = some rb ∧ body ra rb = .next t := by
  rcases withReg_next h with ⟨ha, rfl⟩ | ⟨ra, ha, h⟩
  · exact .inl ⟨.inl ha, rfl⟩
  · rcases withReg_next h with ⟨hb, rfl⟩ | ⟨rb, hb, h⟩
    · exact .inl ⟨.inr hb, rfl⟩
    · exact .inr ⟨ra, rb, ha, hb, h⟩

theorem withReg_of_some {b : Byte} {r : Reg} (h : regOf b = some r) (s : State)
    (body : Reg → Result) : withReg b s body = body r := by simp [withReg, h]

theorem withReg_of_none {b : Byte} (h : regOf b = none) (s : State) (body : Reg → Result) :
    withReg b s body = .next (raiseError .invalidRegister s) := by simp [withReg, h]

theorem withRegs_of_some {a b : Byte} {ra rb : Reg} (ha : regOf a = some ra)
    (hb : regOf b = some rb) (s : State) (body : Reg → Reg → Result) :
    withRegs a b s body = body ra rb := by simp [withRegs, withReg, ha, hb]

/-! ### Memory operands -/

/-- All that an instruction with a memory access can answer. -/
theorem withAccess_next {α : Type} {access : Access α} {s t : State} {body : α → Result}
    (h : withAccess access s body = .next t) :
    (∃ o, access = .outOfBounds o ∧ t = raiseError (.outOfBounds o) s) ∨
    ∃ v, access = .done v ∧ body v = .next t := by
  cases access with
  | done v => exact .inr ⟨v, rfl, h⟩
  | outOfBounds o => cases h; exact .inl ⟨o, rfl, rfl⟩
  | notLoaded => cases h

/-! ### Values -/

theorem toNat_zext16 (b : Byte) : (zext16 b).toNat = b.toNat := by
  simp [zext16]; omega

/-- A zero-extended byte is never negative (R54). -/
theorem toInt_zext16 (b : Byte) : (zext16 b).toInt = b.toNat := by
  have := toNat_zext16 b
  rw [BitVec.toInt_eq_toNat_of_lt (by omega), this]

/-- Wrap-around addition is addition of the bit patterns (R90). -/
theorem aluAdd_eq (a b : Word) : aluAdd a b = a + b := by
  apply BitVec.eq_of_toInt_eq
  simp [aluAdd, wrap16, BitVec.toInt_ofInt, BitVec.toInt_add]

/-- Wrap-around subtraction is subtraction of the bit patterns (R90). -/
theorem aluSub_eq (a b : Word) : aluSub a b = a - b := by
  apply BitVec.eq_of_toInt_eq
  simp [aluSub, wrap16, BitVec.toInt_ofInt, BitVec.toInt_sub]

theorem equalWords_iff {a b : Word} : equalWords a b = true ↔ a = b := by simp [equalWords]

end Sys2Proof.Machine
end

