-- ==== Sys2Proof/Laws/Exec.lean ====
section
/-! SUPPORT. All that an instruction body can do when it answers a next state, said once: frames and
invariants follow from this list by cases, with no unfolding of `exec`. -/

namespace Sys2Proof.Machine

/-- The ways in which body `i` takes state `s` to state `t`. -/
inductive Effect (i : Instr) (s t : State) : Prop where
  /-- A register byte of 3 or more (R77); not of `unknown` or `halt`, which have none. -/
  | invalidRegister (hi : (∀ b, i ≠ .unknown b) ∧ i ≠ .halt)
      (ht : t = raiseError .invalidRegister s)
  /-- An unknown opcode (R97). -/
  | unknownInstruction (b : Byte) (hi : i = .unknown b) (ht : t = raiseError .unknownInstruction s)
  /-- A load or store whose access leaves the memory, with the lowest offset outside (R36). -/
  | outOfBounds (reg addr : Byte) (o : Nat) (hi : i = .loadWord reg addr ∨ i = .storeWord reg addr)
      (ha : 19 ≤ addr.toNat) (ho : o = if addr.toNat = 19 then 20 else addr.toNat)
      (ht : t = raiseError (.outOfBounds o) s)
  /-- A load of two cells (R85). -/
  | load (reg addr low high : Byte) (r : Reg) (hi : i = .loadWord reg addr) (hr : regOf reg = some r)
      (ha : addr.toNat ≤ 18) (hlo : readCell s.mem addr.toNat = some low)
      (hhi : readCell s.mem (addr.toNat + 1) = some high)
      (ht : t = writeBack r (s16 (low.toNat + 256 * high.toNat)) s)
  /-- A store to two cells (R86). -/
  | store (reg addr : Byte) (r : Reg) (m : Memory) (hi : i = .storeWord reg addr)
      (hr : regOf reg = some r) (ha : addr.toNat ≤ 18)
      (hm : m = writeCell (writeCell s.mem addr.toNat (BitVec.ofNat 8 (u16 (readReg s r))))
        (addr.toNat + 1) (BitVec.ofNat 8 (u16 (readReg s r) / 256)))
      (ht : t = setPc (s.x0 + 3) { s with mem := m })
  /-- A sum or difference (R91 to R93). -/
  | arithmetic (a b : Byte) (r : Reg) (v : Word)
      (hi : i = .add a b ∨ i = .sub a b ∨ i = .addImmediate a b) (hr : regOf a = some r)
      (ht : t = writeBack r v s)
  /-- A taken branch (R95). -/
  | taken (a b target : Byte) (ra rb : Reg) (hi : i = .branchIfEq a b target)
      (ha : regOf a = some ra) (hb : regOf b = some rb) (he : readReg s ra = readReg s rb)
      (ht : t = setPc (zext16 target) s)
  /-- An untaken branch (R95). -/
  | untaken (a b target : Byte) (ra rb : Reg) (hi : i = .branchIfEq a b target)
      (ha : regOf a = some ra) (hb : regOf b = some rb) (he : readReg s ra ≠ readReg s rb)
      (ht : t = setPc (s.x0 + 4) s)
  /-- `halt` (R96). -/
  | halt (hi : i = .halt) (ht : t = setPc 20 s)

theorem execLoadWord_effect {reg addr : Byte} {s t : State}
    (h : execLoadWord reg addr s = .next t) : Effect (.loadWord reg addr) s t := by
  rcases withReg_next h with ⟨-, rfl⟩ | ⟨r, hr, h⟩
  · exact .invalidRegister ⟨by simp, by simp⟩ rfl
  rw [memRead_two, offsetOf] at h
  by_cases ha : addr.toNat ≤ 18
  · simp only [ha, if_true] at h
    cases hlo : readCell s.mem addr.toNat with
    | none => simp [hlo, withAccess] at h
    | some lo =>
      cases hhi : readCell s.mem (addr.toNat + 1) with
      | none => simp [hlo, hhi, withAccess] at h
      | some hi =>
        simp only [hlo, hhi, withAccess] at h
        cases h
        exact .load reg addr lo hi r rfl hr ha hlo hhi rfl
  · by_cases h19 : addr.toNat = 19
    · rw [if_neg ha, if_pos h19] at h
      cases h
      exact .outOfBounds reg addr 20 (.inl rfl) (by omega) (by simp [h19]) rfl
    · rw [if_neg ha, if_neg h19] at h
      cases h
      exact .outOfBounds reg addr _ (.inl rfl) (by omega) (by simp [h19]) rfl

theorem execStoreWord_effect {reg addr : Byte} {s t : State}
    (h : execStoreWord reg addr s = .next t) : Effect (.storeWord reg addr) s t := by
  rcases withReg_next h with ⟨-, rfl⟩ | ⟨r, hr, h⟩
  · exact .invalidRegister ⟨by simp, by simp⟩ rfl
  rw [memWrite_two, offsetOf] at h
  by_cases ha : addr.toNat ≤ 18
  · rw [if_pos ha] at h
    cases h
    exact .store reg addr r _ rfl hr ha rfl rfl
  · by_cases h19 : addr.toNat = 19
    · rw [if_neg ha, if_pos h19] at h
      cases h
      exact .outOfBounds reg addr 20 (.inr rfl) (by omega) (by simp [h19]) rfl
    · rw [if_neg ha, if_neg h19] at h
      cases h
      exact .outOfBounds reg addr _ (.inr rfl) (by omega) (by simp [h19]) rfl

theorem execBranchIfEq_effect {a b target : Byte} {s t : State}
    (h : execBranchIfEq a b target s = .next t) : Effect (.branchIfEq a b target) s t := by
  rcases withRegs_next h with ⟨-, rfl⟩ | ⟨ra, rb, ha, hb, h⟩
  · exact .invalidRegister ⟨by simp, by simp⟩ rfl
  by_cases he : readReg s ra = readReg s rb
  · rw [if_pos (equalWords_iff.mpr he)] at h
    cases h
    exact .taken a b target ra rb rfl ha hb he rfl
  · rw [if_neg (mt equalWords_iff.mp he)] at h
    cases h
    exact .untaken a b target ra rb rfl ha hb he rfl

/-- A body that answers a next state has one of the effects of the list. -/
theorem exec_effect {i : Instr} {s t : State} (h : exec i s = .next t) : Effect i s t := by
  cases i with
  | loadWord reg addr => exact execLoadWord_effect h
  | storeWord reg addr => exact execStoreWord_effect h
  | add a b =>
    rcases withRegs_next h with ⟨-, rfl⟩ | ⟨ra, rb, ha, -, h⟩
    · exact .invalidRegister ⟨by simp, by simp⟩ rfl
    · cases h
      exact .arithmetic a b ra _ (.inl rfl) ha rfl
  | sub a b =>
    rcases withRegs_next h with ⟨-, rfl⟩ | ⟨ra, rb, ha, -, h⟩
    · exact .invalidRegister ⟨by simp, by simp⟩ rfl
    · cases h
      exact .arithmetic a b ra _ (.inr (.inl rfl)) ha rfl
  | addImmediate reg k =>
    rcases withReg_next h with ⟨-, rfl⟩ | ⟨r, hr, h⟩
    · exact .invalidRegister ⟨by simp, by simp⟩ rfl
    · cases h
      exact .arithmetic reg k r _ (.inr (.inr rfl)) hr rfl
  | branchIfEq a b target => exact execBranchIfEq_effect h
  | halt => cases h; exact .halt rfl rfl
  | unknown b => cases h; exact .unknownInstruction b rfl rfl

end Sys2Proof.Machine
end

