-- ==== Sys2Proof/Laws/PerInstr.lean ====
section
/-! SUPPORT. The families of lemmas that hold of every instruction, one lemma per constructor. -/

namespace Sys2Proof.Laws

/-- The encoded bytes of a well-formed instruction begin with its opcode and have the length that
the opcode announces (R50, R51). -/
def EncodedLength.Statement (i : Instr) : Prop :=
  i.wf = true → ∃ op operands, encode i = op :: operands ∧ (encode i).length = instrLength op

theorem EncodedLength.loadWord (reg addr : Byte) : EncodedLength.Statement (.loadWord reg addr) :=
  fun _ => ⟨_, _, rfl, rfl⟩

theorem EncodedLength.storeWord (reg addr : Byte) : EncodedLength.Statement (.storeWord reg addr) :=
  fun _ => ⟨_, _, rfl, rfl⟩

theorem EncodedLength.add (a b : Byte) : EncodedLength.Statement (.add a b) :=
  fun _ => ⟨_, _, rfl, rfl⟩

theorem EncodedLength.sub (a b : Byte) : EncodedLength.Statement (.sub a b) :=
  fun _ => ⟨_, _, rfl, rfl⟩

theorem EncodedLength.addImmediate (reg k : Byte) :
    EncodedLength.Statement (.addImmediate reg k) :=
  fun _ => ⟨_, _, rfl, rfl⟩

theorem EncodedLength.branchIfEq (a b newPc : Byte) :
    EncodedLength.Statement (.branchIfEq a b newPc) :=
  fun _ => ⟨_, _, rfl, rfl⟩

theorem EncodedLength.halt : EncodedLength.Statement .halt :=
  fun _ => ⟨_, _, rfl, rfl⟩

theorem EncodedLength.unknown (byte : Byte) : EncodedLength.Statement (.unknown byte) := by
  intro h
  refine ⟨byte, [], rfl, ?_⟩
  simp [Instr.wf, namedOpcodes] at h
  simp [encode, instrLength, h]

end Sys2Proof.Laws
end

