-- ==== Sys2Proof/Laws/Step.lean ====
section
/-! SUPPORT. What fetch and the step can answer, said once. -/

namespace Sys2Proof.Machine

/-- An instruction that fetch finds is the one that its opcode byte and the bytes after it select,
and it lies in the memory (R74, R75). -/
theorem fetch_instr {m : Memory} {p : Nat} {i : Instr} (h : fetch m p = .instr i) :
    ∃ op, readCell m p = some op ∧ p + instrLength op ≤ Config.memSize ∧
      decode (fetchSlice m p) = .ok (i, instrLength op) := by
  unfold fetch at h
  cases hop : readCell m p with
  | none => simp [hop] at h
  | some op =>
    simp only [hop] at h
    split at h
    · cases h
    · next hlen =>
      split at h
      · next j n hd =>
        cases h
        obtain ⟨op', operands, he, rfl, -, -⟩ := decode_ok hd
        have hpos := instrLength_pos op
        have hslice : fetchSlice m p = op :: loadedFrom m (p + 1) (Config.memSize - p - 1) := by
          unfold fetchSlice
          obtain ⟨k, hk⟩ : ∃ k, Config.memSize - p = k + 1 := ⟨Config.memSize - p - 1, by omega⟩
          rw [hk]
          simp [loadedFrom, hop]
        rw [hslice] at he
        cases he
        exact ⟨_, rfl, by omega, hd⟩
      · cases h

/-- Fetch finds `Truncated` from the opcode byte alone (R75). -/
theorem fetch_truncated {m : Memory} {p : Nat} :
    fetch m p = .truncated ↔
      ∃ op, readCell m p = some op ∧ Config.memSize < p + instrLength op := by
  unfold fetch
  cases readCell m p with
  | none => simp
  | some op =>
    by_cases h : Config.memSize < p + instrLength op
    · simp [h]
    · simp only [h, if_false, Option.some.injEq, exists_eq_left', iff_false]
      split <;> simp

/-- All that a step can answer when it answers a next state (R70). -/
theorem step_next {s t : State} (h : step s = .next t) :
    (s.status ≠ .running ∧ t = s) ∨
    (s.status = .running ∧ s.x0.toInt < 0 ∧ t = raiseError .negativePc s) ∨
    (s.status = .running ∧ 20 ≤ s.x0.toInt ∧ t = haltSuccess s) ∨
    (s.status = .running ∧ 0 ≤ s.x0.toInt ∧ s.x0.toInt < 20 ∧
      fetch s.mem s.x0.toNat = .truncated ∧ t = raiseError .truncated s) ∨
    (s.status = .running ∧ 0 ≤ s.x0.toInt ∧ s.x0.toInt < 20 ∧
      ∃ i, fetch s.mem s.x0.toNat = .instr i ∧ exec i s = .next t) := by
  unfold step stepCycle at h
  cases hs : s.status with
  | halted => simp only [hs] at h; cases h; simp
  | errored => simp only [hs] at h; cases h; simp
  | running =>
    simp only [hs, runningStep, memSize_eq] at h
    by_cases h0 : s.x0.toInt < 0
    · simp only [h0, if_true] at h
      cases h
      exact .inr (.inl ⟨rfl, h0, rfl⟩)
    · by_cases h20 : (20 : Int) ≤ s.x0.toInt
      · rw [if_neg h0, if_pos (by exact_mod_cast h20)] at h
        cases h
        exact .inr (.inr (.inl ⟨rfl, h20, rfl⟩))
      · rw [if_neg h0, if_neg (by exact_mod_cast h20)] at h
        unfold fetchAndExec at h
        cases hf : fetch s.mem s.x0.toNat with
        | instr i =>
          rw [hf] at h
          exact .inr (.inr (.inr (.inr ⟨rfl, by omega, by omega, i, rfl, h⟩)))
        | truncated =>
          rw [hf] at h
          cases h
          exact .inr (.inr (.inr (.inl ⟨rfl, by omega, by omega, rfl, rfl⟩)))
        | notLoaded => rw [hf] at h; cases h

/-- A running core's step at a pc inside the memory is its fetch and body (R73, R74). -/
theorem step_of_inside {s : State} (hs : s.status = .running) (h0 : 0 ≤ s.x0.toInt)
    (h20 : s.x0.toInt < 20) : step s = fetchAndExec s := by
  unfold step stepCycle
  simp only [hs, runningStep, memSize_eq]
  rw [if_neg (by omega), if_neg (by simpa using h20)]

end Sys2Proof.Machine
end

