-- ==== Sys2Proof/Laws/Run.lean ====
section
/-! SUPPORT. Runs, one step at a time, and the induction over a run, packaged once. -/

namespace Sys2Proof.Machine

theorem runSteps_zero (s : State) : runSteps 0 s = .next s := rfl

theorem runSteps_succ {k : Nat} {s t : State} (h : step s = .next t) :
    runSteps (k + 1) s = runSteps k t := by
  have : Sys2Proof.core.step s = .next t := h
  simp only [runSteps, Host.Core.run, this]
  rfl

/-- What every step from a good state keeps, and in which no step stops, holds of every run. -/
theorem runSteps_keeps {P : State → Prop} (hstep : ∀ s, P s → ∃ t, step s = .next t ∧ P t)
    (k : Nat) {s : State} (hs : P s) : ∃ t, runSteps k s = .next t ∧ P t := by
  induction k generalizing s with
  | zero => exact ⟨s, rfl, hs⟩
  | succ k ih =>
    obtain ⟨t, ht, hpt⟩ := hstep s hs
    rw [runSteps_succ ht]
    exact ih hpt

end Sys2Proof.Machine
end

