-- ==== Sys2Proof/Tests/Slice0.lean ====
section
/-! SUPPORT. Tests, with expected results from spec 95_test_vectors (the section is named at each), the
smoke tests of WellFormed, and for each obligation with hypotheses a state and operands that meet
them together. -/

namespace Sys2Proof.Tests
open Sys2Proof.Machine

/-! ### Helpers -/

/-- A running machine with the given registers, zeros in all 20 cells, and `bytes` from `o` up. -/
def mk (x0 x1 x2 : Word) (o : Nat) (bytes : List Byte) : State :=
  { State.reset with
    x0 := x0
    x1 := x1
    x2 := x2
    mem := writeBytes (writeBytes [] 0 (List.replicate 20 0)) o bytes }

/-- The state after one step, if there is one. -/
def after (s : State) : Option State :=
  match step s with
  | .next t => some t
  | .fault _ => none
  | .refused _ => none

/-- Registers, status, error code and error info, as the vectors write a state. -/
def view (s : State) : List Int × Status × ErrCode × Nat :=
  ([s.x0.toInt, s.x1.toInt, s.x2.toInt], s.status, s.errCode, s.errInfo.toNat)

/-- The view after one step. -/
def viewAfter (s : State) : Option (List Int × Status × ErrCode × Nat) := (after s).map view

/-- The cell `o` after one step. -/
def cellAfter (s : State) (o : Nat) : Option Nat :=
  ((after s).bind fun t => readCell t.mem o).map BitVec.toNat

theorem loaded_of_isSome {s : State} (h : ∀ o, o < 20 → (readCell s.mem o).isSome = true) :
    Loaded s := fun o ho => Option.isSome_iff_exists.mp (h o ho)

/-! ### WellFormed smoke: each named opcode is refused as the byte of `unknown` -/

theorem test_wf_refuses_load_opcode : (Instr.unknown 0x01).wf = false := by decide
theorem test_wf_refuses_store_opcode : (Instr.unknown 0x02).wf = false := by decide
theorem test_wf_refuses_add_opcode : (Instr.unknown 0x03).wf = false := by decide
theorem test_wf_refuses_sub_opcode : (Instr.unknown 0x04).wf = false := by decide
theorem test_wf_refuses_add_immediate_opcode : (Instr.unknown 0x05).wf = false := by decide
theorem test_wf_refuses_branch_opcode : (Instr.unknown 0x06).wf = false := by decide
theorem test_wf_refuses_halt_opcode : (Instr.unknown 0xff).wf = false := by decide
theorem test_wf_accepts_illegal_opcodes :
    (Instr.unknown 0x00).wf = true ∧ (Instr.unknown 0x07).wf = true ∧
    (Instr.unknown 0xfe).wf = true := by decide

/-! ### Decoding: words written out bit by bit from 30_encoding R55 (vectors of section 2) -/

theorem test_decode_load_word :
    decode [0b00000001, 0b00000001, 0b00010000, 0x77] = .ok (.loadWord 1 0x10, 3) := by decide
theorem test_decode_store_word :
    decode [0b00000010, 0b00000000, 0b00010011] = .ok (.storeWord 0 0x13, 3) := by decide
theorem test_decode_add :
    decode [0b00000011, 0b00000010, 0b00000001] = .ok (.add 2 1, 3) := by decide
theorem test_decode_sub :
    decode [0b00000100, 0b11111111, 0b10000000] = .ok (.sub 255 128, 3) := by decide
theorem test_decode_add_immediate :
    decode [0b00000101, 0b00000001, 0b11111111] = .ok (.addImmediate 1 255, 3) := by decide
theorem test_decode_branch_if_eq :
    decode [0b00000110, 0b00000001, 0b00000010, 0b00000111] = .ok (.branchIfEq 1 2 7, 4) := by decide
theorem test_decode_halt : decode [0b11111111, 1, 2] = .ok (.halt, 1) := by decide
theorem test_decode_unknown :
    decode [0b00000111, 1, 2, 3] = .ok (.unknown 7, 1) ∧ decode [0b00000000] = .ok (.unknown 0, 1) ∧
    decode [0b11111110] = .ok (.unknown 0xfe, 1) := by decide
theorem test_decode_truncated :
    decode [1, 1] = .error .truncated ∧ decode [5] = .error .truncated ∧
    decode [6, 1, 2] = .error .truncated ∧ decode [6] = .error .truncated := by decide
theorem test_table_word :
    decodeTableWord 24 0x100101 = some (.loadWord 1 0x10) ∧
    decodeTableWord 8 0x06 = some (.branchIfEq 0 0 0) ∧ decodeTableWord 8 0xff = some .halt := by decide
theorem test_fetch_word_runs :
    viewAfter (State.reset.withFetchWord 24 0x000101) = some ([3, 257, 0], .running, .none, 0) := by
  decide

/-! ### One step of each instruction -/

/-- S-A step 1. -/
theorem test_load_word :
    viewAfter (mk 0 0 0 0 [0x01, 0x01, 0x10, 0, 0, 0, 0, 0, 0, 0, 0, 0, 0, 0, 0, 0, 0xa1, 0x14]) =
      some ([3, 5281, 0], .running, .none, 0) := by decide
/-- Section 4: `load_word r0 (0x13)` is still checked. -/
theorem test_load_word_r0_out_of_bounds :
    viewAfter (mk 0 0 0 0 [0x01, 0x00, 0x13]) = some ([0, 0, 0], .errored, .outOfBounds, 20) := by
  decide
/-- Section 4: -5269 stores `6b eb`. -/
theorem test_store_word :
    cellAfter (mk 9 (-5269) 0 9 [0x02, 0x01, 0x0e]) 0x0e = some 0x6b ∧
    cellAfter (mk 9 (-5269) 0 9 [0x02, 0x01, 0x0e]) 0x0f = some 0xeb := by decide
/-- P5 step 2: no partial write at offset 19. -/
theorem test_store_word_across_the_end :
    viewAfter (mk 3 7 0 3 [0x02, 0x01, 0x13]) = some ([3, 7, 0], .errored, .outOfBounds, 20) ∧
    cellAfter (mk 3 7 0 3 [0x02, 0x01, 0x13]) 19 = some 0 := by decide
/-- Section 5. -/
theorem test_add_wraps :
    viewAfter (mk 6 32767 1 6 [0x03, 0x01, 0x02]) = some ([9, -32768, 1], .running, .none, 0) := by
  decide
/-- Section 5: register 0 as a source reads the instruction's own offset. -/
theorem test_add_reads_pc :
    viewAfter (mk 3 0 0 3 [0x03, 0x01, 0x00]) = some ([6, 3, 0], .running, .none, 0) := by decide
/-- S-C step 3. -/
theorem test_sub :
    viewAfter (mk 6 12 5281 6 [0x04, 0x01, 0x02]) = some ([9, -5269, 5281], .running, .none, 0) := by
  decide
/-- Section 5: a result for register 0 is replaced by the pc's advance. -/
theorem test_sub_into_pc :
    viewAfter (mk 6 0 1 6 [0x04, 0x00, 0x02]) = some ([9, 0, 1], .running, .none, 0) := by decide
/-- Section 5: 0xff adds 255. -/
theorem test_add_immediate_zero_extends :
    viewAfter (mk 0 (-256) 0 0 [0x05, 0x01, 0xff]) = some ([3, -1, 0], .running, .none, 0) := by decide
/-- Section 5. -/
theorem test_add_immediate_wraps :
    viewAfter (mk 0 32700 0 0 [0x05, 0x01, 0xff]) = some ([3, -32581, 0], .running, .none, 0) := by
  decide
/-- Section 6: register 0 reads 6 and equals `x1`. -/
theorem test_branch_taken :
    viewAfter (mk 6 6 0 6 [0x06, 0x00, 0x01, 0x0b]) = some ([11, 6, 0], .running, .none, 0) := by
  decide
/-- Section 6: the comparison is of all 16 bits. -/
theorem test_branch_not_taken :
    viewAfter (mk 0 (-1) 32767 0 [0x06, 0x01, 0x02, 0x07]) =
      some ([4, -1, 32767], .running, .none, 0) := by decide
/-- Section 6: `halt` at offset 19, and the step after it. -/
theorem test_halt :
    viewAfter (mk 19 1 2 19 [0xff]) = some ([20, 1, 2], .running, .none, 0) ∧
    viewAfter (mk 20 1 2 19 [0xff]) = some ([20, 1, 2], .halted, .none, 0) := by decide
/-- Section 6: an unknown byte at offset 19 is not `Truncated`. -/
theorem test_unknown :
    viewAfter (mk 19 0 0 19 [0x07]) = some ([19, 0, 0], .errored, .unknownInstruction, 0) := by decide

/-! ### The step's checks (section 7), reset (section 8), the disassembler (section 3) -/

theorem test_negative_pc :
    viewAfter (mk (-1) 0 0 0 []) = some ([-1, 0, 0], .errored, .negativePc, 0) := by decide
theorem test_halt_at_the_largest_pc :
    viewAfter (mk 32767 0 0 0 []) = some ([32767, 0, 0], .halted, .none, 0) := by decide
theorem test_last_fitting_instruction :
    viewAfter (mk 17 1 0 17 [0x05, 0x01, 0x05]) = some ([20, 6, 0], .running, .none, 0) := by decide
theorem test_truncated_before_invalid_register :
    viewAfter (mk 18 0 0 18 [0x01, 0x07]) = some ([18, 0, 0], .errored, .truncated, 0) := by decide
theorem test_invalid_register_before_out_of_bounds :
    viewAfter (mk 0 0 0 0 [0x01, 0x07, 0xc8]) = some ([0, 0, 0], .errored, .invalidRegister, 0) := by
  decide
theorem test_reset_keeps_memory :
    applyReset { mk 255 (-5269) 7 0 [1] with status := .errored, errCode := .outOfBounds, errInfo := 20 }
      = mk 0 0 0 0 [1] := by decide
/-- 10_state R20: the words of `STATUS`. -/
theorem test_status_words :
    [Status.running, .halted, .errored].map (fun v => statusWord { State.reset with status := v })
      = [0, 1, 2] := by decide
/-- 10_state R21 and 60_exceptions R100: the words of `ERR_CODE`, as the five errors record them. -/
theorem test_error_code_words :
    [Error.outOfBounds 20, .negativePc, .unknownInstruction, .invalidRegister, .truncated].map
      (fun e => errCodeWord (raiseError e State.reset)) = [1, 2, 3, 4, 5] ∧
    errCodeWord State.reset = 0 := by decide
theorem test_render_invalid_index : render (.loadWord 7 0xc8) = "load_word r7 (0xc8)" := by decide
theorem test_render_three_digits : render (.add 255 10) = "add r255 r10" := by decide
theorem test_disassemble_tail : disassemble [0xa1] = .ok ["0xa1"] := by decide
theorem test_disassemble_truncated : disassemble [0xff, 0x03, 0x00] = .error .truncated := by decide

/-! ### Witnesses: the hypotheses of each obligation, met together -/

theorem witness_StepRunsTheDecodedInstruction :
    let s := mk 17 1 0 17 [0x05, 0x01, 0x05]
    s.status = .running ∧ 0 ≤ s.x0.toInt ∧ s.x0.toInt + ([0x05, 0x01, 0x05] : List Byte).length ≤ 20 ∧
    (∀ k, (hk : k < ([0x05, 0x01, 0x05] : List Byte).length) →
      readCell s.mem (s.x0.toNat + k) = some ([0x05, 0x01, 0x05] : List Byte)[k]) ∧
    decode [0x05, 0x01, 0x05] = .ok (.addImmediate 1 5, 3) := by decide

theorem witness_TerminalStatesAbsorbEveryRun :
    ({ mk 20 0 0 0 [] with status := .halted } : State).status ≠ .running ∧
    ({ mk 0 0 0 0 [] with status := .errored } : State).status ≠ .running := by decide

theorem witness_NegativePcIsCheckedFirst :
    (mk (-1) 0 0 0 []).status = .running ∧ (mk (-1) 0 0 0 []).x0.msb = true ∧
    (mk (-32768) 0 0 0 []).x0.msb = true := by decide

theorem witness_SuccessHaltExactlyPastTheEnd :
    (mk 20 0 0 0 []).status = .running ∧ 20 ≤ (mk 20 0 0 0 []).x0.toInt ∧
    20 ≤ (mk 32767 0 0 0 []).x0.toInt ∧ (after (mk 20 0 0 0 [])).map (·.status) = some .halted := by
  decide

theorem witness_SuccessHaltIsNoError :
    (mk 20 0 0 0 []).status = .running ∧ StatusConsistent (mk 20 0 0 0 []) ∧
    20 ≤ (mk 20 0 0 0 []).x0.toInt := by
  refine ⟨rfl, ?_, by decide⟩
  unfold StatusConsistent
  decide

theorem witness_TruncatedFromTheOpcodeAlone :
    (mk 18 0 0 18 [0x01]).status = .running ∧ 0 ≤ (mk 18 0 0 18 [0x01]).x0.toInt ∧
    (mk 18 0 0 18 [0x01]).x0.toInt < 20 ∧
    readCell (mk 18 0 0 18 [0x01]).mem (mk 18 0 0 18 [0x01]).x0.toNat = some 0x01 ∧
    20 < (mk 18 0 0 18 [0x01]).x0.toInt + instrLength 0x01 ∧
    readCell (mk 17 0 0 17 [0x06]).mem (mk 17 0 0 17 [0x06]).x0.toNat = some 0x06 ∧
    20 < (mk 17 0 0 17 [0x06]).x0.toInt + instrLength 0x06 := by decide

theorem witness_FetchOfAnUnloadedCellStops :
    let s : State := { State.reset with x0 := 19 }
    s.status = .running ∧ 0 ≤ s.x0.toInt ∧ s.x0.toInt < 20 ∧ readCell s.mem s.x0.toNat = none := by
  decide

/-- Register bytes 3, 2 and 0 and offsets 20, 19 and 18: each clause at its boundary; for
`LoadWordMeaning` and `StoreWordMeaning`. -/
theorem witness_LoadWordMeaning :
    3 ≤ (3 : Byte).toNat ∧ (2 : Byte).toNat < 3 ∧ 20 ≤ (20 : Byte).toNat ∧ (19 : Byte).toNat = 19 ∧
    (18 : Byte).toNat ≤ 18 ∧ readCell (mk 0 0 0 18 [0xff, 0x7f]).mem (18 : Byte).toNat = some 0xff ∧
    readCell (mk 0 0 0 18 [0xff, 0x7f]).mem ((18 : Byte).toNat + 1) = some 0x7f := by decide

theorem witness_StoreWordMeaning :
    3 ≤ (3 : Byte).toNat ∧ (2 : Byte).toNat < 3 ∧ 20 ≤ (20 : Byte).toNat ∧ (19 : Byte).toNat = 19 ∧
    (18 : Byte).toNat ≤ 18 ∧ OperandReads (mk 9 (-1) 5 0 []) 0 9 ∧
    OperandReads (mk 9 (-1) 5 0 []) 1 (-1) ∧ OperandReads (mk 9 (-1) 5 0 []) 2 5 := by
  unfold OperandReads
  decide

theorem witness_AddMeaning :
    (3 ≤ (3 : Byte).toNat ∨ 3 ≤ (0 : Byte).toNat) ∧ (3 ≤ (0 : Byte).toNat ∨ 3 ≤ (255 : Byte).toNat) ∧
    OperandReads (mk 6 32767 1 0 []) 2 1 ∧ OperandReads (mk 6 32767 1 0 []) 0 6 := by
  unfold OperandReads
  decide

theorem witness_SubMeaning :
    (3 ≤ (3 : Byte).toNat ∨ 3 ≤ (2 : Byte).toNat) ∧ (3 ≤ (2 : Byte).toNat ∨ 3 ≤ (3 : Byte).toNat) ∧
    OperandReads (mk 6 12 5281 0 []) 2 5281 ∧ OperandReads (mk 6 12 5281 0 []) 1 12 := by
  unfold OperandReads
  decide

theorem witness_AddImmediateMeaning : 3 ≤ (3 : Byte).toNat ∧ 3 ≤ (255 : Byte).toNat := by decide

theorem witness_BranchIfEqMeaning :
    (3 ≤ (3 : Byte).toNat ∨ 3 ≤ (2 : Byte).toNat) ∧
    (OperandReads (mk 6 6 0 0 []) 0 6 ∧ OperandReads (mk 6 6 0 0 []) 1 6 ∧ (6 : Word) = 6) ∧
    (OperandReads (mk 6 6 0 0 []) 1 6 ∧ OperandReads (mk 6 6 0 0 []) 2 0 ∧ (6 : Word) ≠ 0) := by
  unfold OperandReads
  decide

theorem witness_HaltTakesTwoSteps : (mk 12 1 2 12 [0xff]).status = .running := by decide

theorem witness_UnknownMeaning :
    ((0x07 : Byte) = 0x00 ∨ (0x07 ≤ (0x07 : Byte).toNat ∧ (0x07 : Byte).toNat ≤ 0xfe)) ∧
    ((0xfe : Byte) = 0x00 ∨ (0x07 ≤ (0xfe : Byte).toNat ∧ (0xfe : Byte).toNat ≤ 0xfe)) ∧
    (mk 19 0 0 19 [0x07]).status = .running ∧ 0 ≤ (mk 19 0 0 19 [0x07]).x0.toInt ∧
    (mk 19 0 0 19 [0x07]).x0.toInt < 20 ∧
    readCell (mk 19 0 0 19 [0x07]).mem (mk 19 0 0 19 [0x07]).x0.toNat = some 0x07 := by decide

theorem witness_InvalidRegisterBeforeAnything : 3 ≤ (3 : Byte).toNat := by decide

theorem witness_OnlyLoadAndStoreRaiseOutOfBounds :
    (mk 3 7 0 3 [0x02, 0x01, 0x13]).errCode ≠ .outOfBounds ∧
    (after (mk 3 7 0 3 [0x02, 0x01, 0x13])).map (·.errCode) = some .outOfBounds ∧
    (after (mk 0 7 0 0 [0x01, 0x01, 0xff])).map (·.errCode) = some .outOfBounds := by decide

theorem witness_ErrorsArePrecise :
    (after (mk 3 7 0 3 [0x02, 0x01, 0x13])).map (·.status) = some .errored := by decide

theorem witness_RegisterWritersFrame :
    (∃ t, exec (.loadWord 1 0x12) (mk 0 1 2 0 []) = .next t) ∧
    (∃ t, exec (.add 2 1) (mk 0 1 2 0 []) = .next t) ∧
    (∃ t, exec (.sub 3 1) (mk 0 1 2 0 []) = .next t) ∧
    (∃ t, exec (.addImmediate 0 9) (mk 0 1 2 0 []) = .next t) :=
  ⟨⟨_, rfl⟩, ⟨_, rfl⟩, ⟨_, rfl⟩, ⟨_, rfl⟩⟩

theorem witness_StoreWordFrame :
    (∃ t, exec (.storeWord 1 18) (mk 0 (-1) 2 0 []) = .next t) ∧
    (∃ t, exec (.storeWord 1 19) (mk 0 (-1) 2 0 []) = .next t) := ⟨⟨_, rfl⟩, ⟨_, rfl⟩⟩

theorem witness_ControlFrame :
    (∃ t, exec (.branchIfEq 1 2 7) (mk 0 1 2 0 []) = .next t) ∧
    (∃ t, exec .halt (mk 0 1 2 0 []) = .next t) ∧
    (∃ t, exec (.unknown 7) (mk 0 1 2 0 []) = .next t) := ⟨⟨_, rfl⟩, ⟨_, rfl⟩, ⟨_, rfl⟩⟩

theorem witness_OnlyStoreWordChangesMemory :
    (after (mk 9 (-1) 0 9 [0x02, 0x01, 0x0e])).map (fun t => decide (t.mem ≠
      (mk 9 (-1) 0 9 [0x02, 0x01, 0x0e]).mem)) = some true := by decide

theorem witness_OnlyATakenBranchPassesTwenty :
    (mk 0 0 0 0 [0x06, 0x00, 0x00, 0xff]).status = .running ∧
    0 ≤ (mk 0 0 0 0 [0x06, 0x00, 0x00, 0xff]).x0.toInt ∧
    (mk 0 0 0 0 [0x06, 0x00, 0x00, 0xff]).x0.toInt < 20 ∧
    (after (mk 0 0 0 0 [0x06, 0x00, 0x00, 0xff])).map (fun t => decide (20 < t.x0.toInt)) = some true := by
  decide

theorem witness_StepKeepsMemoryCanonical :
    MemoryCanonical (mk 9 (-1) 0 9 [0x02, 0x01, 0x0e]) ∧
    (after (mk 9 (-1) 0 9 [0x02, 0x01, 0x0e])).isSome = true := by
  unfold MemoryCanonical
  decide

theorem witness_StepKeepsStatusConsistent :
    StatusConsistent (mk 3 7 0 3 [0x02, 0x01, 0x13]) ∧
    (after (mk 3 7 0 3 [0x02, 0x01, 0x13])).isSome = true := by
  unfold StatusConsistent
  decide

theorem witness_StepKeepsPcInRange :
    PcInRange (mk 255 0 0 0 []) ∧ PcInRange (mk 0 0 0 0 [0x06, 0x00, 0x00, 0xff]) ∧
    (after (mk 0 0 0 0 [0x06, 0x00, 0x00, 0xff])).isSome = true ∧
    (mk 0 0 0 0 [0x06, 0x00, 0x00, 0xff]).errCode ≠ .negativePc := by
  unfold PcInRange
  decide

theorem witness_LoadedStepNeverStops : Loaded (mk 0 0 0 0 [0x01, 0x01, 0x12]) :=
  loaded_of_isSome (by decide)

theorem witness_LaunchedRunNeverStops : Launched (mk 0 0 0 0 [0x06, 0x00, 0x00, 0x00]) := by
  refine ⟨?_, loaded_of_isSome (by decide), ?_, ?_, by decide⟩
  · unfold MemoryCanonical; decide
  · unfold StatusConsistent; decide
  · unfold PcInRange; decide

theorem witness_LaunchOfTwentyBytes :
    MemoryCanonical State.reset ∧ (List.replicate 20 (0xff : Byte)).length = 20 := by
  unfold MemoryCanonical
  decide

theorem witness_ImageOfAnotherLengthIsRefused :
    (List.replicate 19 (0xff : Byte)).length ≠ 20 ∧ (List.replicate 21 (0xff : Byte)).length ≠ 20 := by
  decide

theorem witness_BodiesStopOnlyAtUnloadedCells :
    (0 : Byte).toNat < 3 ∧ (18 : Byte).toNat ≤ 18 ∧
    (readCell State.reset.mem (18 : Byte).toNat = none ∨
      readCell State.reset.mem ((18 : Byte).toNat + 1) = none) ∧
    exec (.loadWord 0 18) State.reset = .fault .cellNotLoaded := ⟨by decide, by decide, by decide, rfl⟩

theorem witness_DecodeOfEncode : (Instr.unknown 0xfe).wf = true ∧ (Instr.sub 255 128).wf = true := by
  decide

theorem witness_EncodeOfDecode :
    decode [0x06, 0x03, 0x80, 0xff, 0x01] = .ok (.branchIfEq 3 0x80 0xff, 4) := by decide

theorem witness_LengthByOpcode :
    (1 ≤ (1 : Byte).toNat ∧ (1 : Byte).toNat ≤ 5) ∧ (1 ≤ (5 : Byte).toNat ∧ (5 : Byte).toNat ≤ 5) ∧
    (6 : Byte).toNat = 6 ∧ ((0 : Byte).toNat = 0 ∨ 7 ≤ (0 : Byte).toNat) ∧
    ((255 : Byte).toNat = 0 ∨ 7 ≤ (255 : Byte).toNat) := by decide

theorem witness_DecodeIsTotal :
    ([0x01] : List Byte).length + 1 < instrLength 0x01 ∧
    instrLength 0x06 ≤ ([1, 2, 3] : List Byte).length + 1 := by decide

theorem witness_FetchReadsOnlyTheTwentyCells :
    19 < 20 ∧ ∀ o, o < 20 → readCell [(19, 0x01), (20, 0xaa)] o = readCell [(19, 0x01)] o := by decide

theorem witness_SubUndoesAdd :
    ∃ t u, exec (.add 1 2) (mk 0 32767 1 0 []) = .next t ∧ exec (.sub 1 2) t = .next u ∧
    ∃ v w, exec (.add 2 1) (mk 0 32767 1 0 []) = .next v ∧ exec (.sub 2 1) v = .next w :=
  ⟨_, _, rfl, rfl, _, _, rfl, rfl⟩

theorem witness_LoadAfterStoreReturnsTheValue :
    OperandReads (mk 0 (-5269) 0 0 []) 1 (-5269) ∧ (18 : Byte).toNat ≤ 18 ∧
    ∃ t, exec (.storeWord 1 18) (mk 0 (-5269) 0 0 []) = .next t :=
  ⟨.inr (.inl ⟨rfl, rfl⟩), by decide, _, rfl⟩

theorem witness_StoredBytesAreFetched :
    OperandReads (mk 3 261 0 0 []) 1 261 ∧ (6 : Byte).toNat ≤ 18 ∧
    ∃ t, exec (.storeWord 1 6) (mk 3 261 0 0 []) = .next t :=
  ⟨.inr (.inl ⟨rfl, rfl⟩), by decide, _, rfl⟩

theorem witness_MemReadOfOneAndTwoBytes :
    20 ≤ 20 ∧ 20 ≤ 255 ∧ 255 ≤ 255 ∧ 19 ≤ 19 ∧ 18 ≤ 18 ∧
    readCell (mk 0 0 0 18 [0xff, 0x7f]).mem 19 = some 0x7f ∧
    readCell (mk 0 0 0 18 [0xff, 0x7f]).mem 18 = some 0xff := by decide

theorem witness_MemWriteOfOneAndTwoBytes :
    20 ≤ 20 ∧ 20 ≤ 255 ∧ 255 ≤ 255 ∧ 19 ≤ 19 ∧ 18 ≤ 18 := by decide

theorem witness_CanonicalMemoriesAreEqualData :
    Memory.wf (writeCell (writeCell [] 3 1) 0 2) ∧ Memory.wf [(0, 2), (3, 1)] ∧
    ∀ o, readCell (writeCell (writeCell [] 3 1) 0 2) o = readCell [(0, 2), (3, 1)] o :=
  ⟨by decide, by decide, fun _ => rfl⟩

/-- Each row of the two tables has a state, and the consistent ones are on both sides of `ERRORED`. -/
theorem witness_StatusWordsAreLegal :
    (StatusConsistent State.reset ∧
      StatusConsistent { State.reset with status := .errored, errCode := .truncated }) ∧
    (∀ v : Status, ({ State.reset with status := v } : State).status = v) ∧
    ∀ c : ErrCode, ({ State.reset with errCode := c } : State).errCode = c := by
  refine ⟨?_, fun _ => rfl, fun _ => rfl⟩
  unfold StatusConsistent
  decide

theorem witness_OutputWordIsWhatWasStored :
    readCell (mk 0 0 0 14 [0xad, 0x14]).mem 14 = some 0xad ∧
    readCell (mk 0 0 0 14 [0xad, 0x14]).mem 15 = some 0x14 ∧
    OperandReads (mk 0 0 5293 0 []) 2 5293 ∧
    ∃ t, exec (.storeWord 2 0x0e) (mk 0 0 5293 0 []) = .next t :=
  ⟨by decide, by decide, .inr (.inr ⟨rfl, rfl⟩), _, rfl⟩

theorem witness_DisassemblySizesAddUp :
    sweep [0x03, 0x01, 0x02, 0xff] = .ok [(.add 1 2, 3), (.halt, 1)] := by decide

theorem witness_DisassemblyFailsOnlyAtATruncatedTail :
    disassemble [0xff, 0x06, 0x01, 0x02] = .error .truncated := by decide

end Sys2Proof.Tests
end

section
/-! PROOFS. The memory family: what a bounds-checked read answers (spec 20_memory, R33, R34, R36). -/

namespace Sys2Proof.Machine

/-- A one-byte access is in range, or reports its only offset (R36). -/
theorem firstOutside_one (addr : Nat) :
    firstOutside addr 1 = if addr ≤ 19 then none else some addr := by
  by_cases h : addr ≤ 19
  · rw [if_pos h, firstOutside_eq_none, memSize_eq]
    omega
  · rw [if_neg h, firstOutside, if_pos (by rw [memSize_eq]; omega)]

/-- The value of one cell is its byte, and a cell that nothing has filled has none (R34). -/
theorem readLittleEndian_one (m : Memory) (addr : Nat) :
    readLittleEndian m addr 1 = (readCell m addr).map BitVec.toNat := by
  cases h : readCell m addr <;> simp [readLittleEndian, h]

/-- All that a one-byte read can answer (R34). -/
theorem memRead_one (m : Memory) (addr : Nat) :
    memRead m addr 1 =
      if addr ≤ 19 then (readCell m addr).elim .notLoaded (fun b => .done b.toNat)
      else .outOfBounds addr := by
  unfold memRead
  rw [firstOutside_one, readLittleEndian_one]
  by_cases h : addr ≤ 19
  · cases readCell m addr <;> simp [h]
  · simp [h]

/-- Settles O44: each clause picks one branch of `memRead_one` and of `memRead_two`. The bound of 255
is not needed, since `firstOutside` counts in the natural numbers. -/
theorem memReadOfOneAndTwoBytes : Obligations.MemReadOfOneAndTwoBytes := by
  intro m addr _
  refine ⟨fun hout => ⟨?one, ?two⟩, fun h19 => ?straddles, fun lo hin hlo => ?byte,
    fun lo hi hin hlo hhi => ?word⟩
  case one => rw [memRead_one, if_neg (by omega)]
  case two => rw [memRead_two, if_neg (by omega), if_neg (by omega)]
  case straddles => rw [memRead_two, if_neg (by omega), if_pos h19]
  case byte => rw [memRead_one, if_pos hin, hlo, Option.elim_some]
  case word => rw [memRead_two, if_pos hin, hlo, hhi]

end Sys2Proof.Machine
end

section
/-! PROOFS. The encoding family: the length of an instruction from its opcode byte, and the sizes that
the disassembler's sweep adds up (spec 30_encoding, R51, R56, R65). -/

namespace Sys2Proof

/-- The five three-byte opcodes are the bytes from 1 to 5 (R51). -/
theorem mem_threeByteOpcodes_iff (op : Byte) :
    op ∈ [(0x01 : Byte), 0x02, 0x03, 0x04, 0x05] ↔ 1 ≤ op.toNat ∧ op.toNat ≤ 5 := by
  simp only [List.mem_cons, List.not_mem_nil, or_false]
  bv_omega

/-- The length of R51 by the number that the opcode byte stands for. -/
theorem instrLength_eq_of_toNat (op : Byte) :
    instrLength op = if 1 ≤ op.toNat ∧ op.toNat ≤ 5 then 3 else if op.toNat = 6 then 4 else 1 := by
  have hsix : op = 0x06 ↔ op.toNat = 6 := by bv_omega
  simp only [instrLength, mem_threeByteOpcodes_iff, hsix]

/-- Settles O36: each clause picks one branch of `instrLength_eq_of_toNat`. -/
theorem lengthByOpcode : Obligations.LengthByOpcode := by
  intro op
  rw [instrLength_eq_of_toNat]
  refine ⟨fun hlo hhi => ?three, fun hsix => ?four, fun hother => ?one⟩
  case three => rw [if_pos ⟨hlo, hhi⟩]
  case four => rw [if_neg (by omega), if_pos hsix]
  case one => rw [if_neg (by omega), if_neg (by omega)]

/-- The encoding of what an opcode byte selects is that byte with as many of the operand bytes as its
length counts: along the table of R55. -/
theorem encode_selectVariant (op b1 b2 b3 : Byte) :
    encode (selectVariant op b1 b2 b3) = [op, b1, b2, b3].take (instrLength op) := by
  unfold selectVariant
  split_ifs with hload hstore hadd hsub himm hbranch hhalt
  · subst hload; rfl
  · subst hstore; rfl
  · subst hadd; rfl
  · subst hsub; rfl
  · subst himm; rfl
  · subst hbranch; rfl
  · subst hhalt; rfl
  · simp only [encode, instrLength, List.mem_cons, List.not_mem_nil, hload, hstore, hadd, hsub, himm,
      hbranch, or_false, if_false, List.take_succ_cons, List.take_zero]

/-- The operand positions 1, 2 and 3 hold the bytes after the opcode, as far as the sequence reaches. -/
theorem take_operandPositions {op : Byte} {operands : List Byte} {n : Nat} (hn : n ≤ 4)
    (hlen : n ≤ operands.length + 1) :
    [op, operands.getD 0 0, operands.getD 1 0, operands.getD 2 0].take n =
      (op :: operands).take n := by
  apply List.ext_getElem
  · simp only [List.length_take, List.length_cons, List.length_nil]
    omega
  · intro k hk _
    simp only [List.length_take, List.length_cons, List.length_nil] at hk
    obtain rfl | rfl | rfl | rfl : k = 0 ∨ k = 1 ∨ k = 2 ∨ k = 3 := by omega
    all_goals simp (disch := omega)

/-- What decodes is the encoding of the answer, which takes up the answered length (R56). -/
theorem encode_of_decode {bytes : List Byte} {i : Instr} {n : Nat} (h : decode bytes = .ok (i, n)) :
    encode i = bytes.take n ∧ n ≤ bytes.length := by
  obtain ⟨op, operands, rfl, rfl, hlen, rfl⟩ := decode_ok h
  have hfour : instrLength op ≤ 4 := by rcases instrLength_cases op with h | h | h <;> omega
  exact ⟨by rw [encode_selectVariant, take_operandPositions hfour hlen], hlen⟩

end Sys2Proof

namespace Sys2Proof.Machine

/-- The bytes that the instructions of some rows encode to, in order. -/
def rowBytes (rows : List (Instr × Nat)) : List Byte := (rows.map fun row => encode row.1).flatten

/-- Each row's size is the length of its instruction's encoding. -/
def SizesAreLengths (rows : List (Instr × Nat)) : Prop :=
  ∀ row ∈ rows, row.2 = (encode row.1).length

@[simp] theorem rowBytes_nil : rowBytes [] = [] := rfl

@[simp] theorem rowBytes_cons (row : Instr × Nat) (rows : List (Instr × Nat)) :
    rowBytes (row :: rows) = encode row.1 ++ rowBytes rows := rfl

theorem rowBytes_append (rows rows' : List (Instr × Nat)) :
    rowBytes (rows ++ rows') = rowBytes rows ++ rowBytes rows' := by
  simp [rowBytes]

/-- Where each size is a length, the sizes add up to the length of all the bytes. -/
theorem SizesAreLengths.sum_eq {rows : List (Instr × Nat)} (h : SizesAreLengths rows) :
    (rows.map fun row => row.2).sum = (rowBytes rows).length := by
  rw [rowBytes, List.length_flatten, List.map_map]
  exact congrArg List.sum (List.map_congr_left h)

/-- A sweep that answers rows has decoded one instruction and swept the bytes behind it (R64). -/
theorem sweepWithin_cons_ok {n : Nat} {b : Byte} {bs : List Byte} {rows : List (Instr × Nat)}
    (h : sweepWithin (n + 1) (b :: bs) = .ok rows) :
    ∃ i len rest, decode (b :: bs) = .ok (i, len) ∧
      sweepWithin n ((b :: bs).drop len) = .ok rest ∧ rows = (i, len) :: rest := by
  simp only [sweepWithin] at h
  split at h
  · cases h
  · next i len hd =>
    split at h
    · cases h
    · next rest hrest =>
      cases h
      exact ⟨i, len, rest, hd, hrest, rfl⟩

/-- The rows of a sweep encode to the bytes that were swept, each in its answered size (R65). -/
theorem sweepWithin_ok {n : Nat} {bytes : List Byte} {rows : List (Instr × Nat)}
    (h : sweepWithin n bytes = .ok rows) : rowBytes rows = bytes ∧ SizesAreLengths rows := by
  induction n generalizing bytes rows with
  | zero =>
    cases bytes with
    | nil => cases h; exact ⟨rfl, by simp [SizesAreLengths]⟩
    | cons b bs => cases h
  | succ n ih =>
    cases bytes with
    | nil => cases h; exact ⟨rfl, by simp [SizesAreLengths]⟩
    | cons b bs =>
      obtain ⟨i, len, rest, hd, hrest, rfl⟩ := sweepWithin_cons_ok h
      obtain ⟨hbytes, hsizes⟩ := ih hrest
      obtain ⟨hi, hlen⟩ := encode_of_decode hd
      have hsize : len = (encode i).length := by rw [hi, List.length_take_of_le hlen]
      exact ⟨by rw [rowBytes_cons, hbytes, hi, List.take_append_drop],
        List.forall_mem_cons.mpr ⟨hsize, hsizes⟩⟩

/-- Settles O49: the bytes are those of the first rows followed by those of the others, and any of
the rows have their lengths for sizes. -/
theorem disassemblySizesAddUp : Obligations.DisassemblySizesAddUp := by
  intro bytes rows h
  obtain ⟨hbytes, hsizes⟩ := sweepWithin_ok h
  refine ⟨fun j => ⟨rowBytes (rows.take j), rowBytes (rows.drop j), ?split, rfl, ?sizes⟩, ?whole⟩
  case split => rw [← rowBytes_append, List.take_append_drop, hbytes]
  case sizes =>
    have hfirst : SizesAreLengths (rows.take j) := fun row hrow =>
      hsizes row (List.mem_of_mem_take hrow)
    exact hfirst.sum_eq
  case whole => rw [hsizes.sum_eq, hbytes]

end Sys2Proof.Machine
end

section
/-! PROOFS. The step-cycle family: the success halt of a running core (spec 40_step_cycle, R73). -/

namespace Sys2Proof.Machine

/-- A running core at a pc past the memory halts, by the second of the two pc checks (R73). -/
theorem step_of_past_end {s : State} (hs : s.status = .running) (h20 : 20 ≤ s.x0.toInt) :
    step s = .next (haltSuccess s) := by
  simp only [step, stepCycle, hs, runningStep, memSize_eq]
  rw [if_neg (by omega), if_pos (by exact_mod_cast h20)]

/-- No body writes a status other than `ERRORED` (R96, R106). -/
theorem Effect.status_eq_or_errored {i : Instr} {s t : State} (h : Effect i s t) :
    t.status = s.status ∨ t.status = .errored := by
  cases h with
  | invalidRegister _ ht => exact .inr (by rw [ht, raiseError_status])
  | unknownInstruction _ _ ht => exact .inr (by rw [ht, raiseError_status])
  | outOfBounds _ _ _ _ _ _ ht => exact .inr (by rw [ht, raiseError_status])
  | load _ _ _ _ _ _ _ _ _ _ ht => exact .inl (by rw [ht, writeBack_status])
  | store _ _ _ _ _ _ _ _ ht => exact .inl (by rw [ht, setPc_status])
  | arithmetic _ _ _ _ _ _ ht => exact .inl (by rw [ht, writeBack_status])
  | taken _ _ _ _ _ _ _ _ _ ht => exact .inl (by rw [ht, setPc_status])
  | untaken _ _ _ _ _ _ _ _ _ ht => exact .inl (by rw [ht, setPc_status])
  | halt _ ht => exact .inl (by rw [ht, setPc_status])

/-- A body run by a running core does not reach `HALTED`, `halt` included (R96). -/
theorem exec_status_ne_halted {i : Instr} {s t : State} (hs : s.status = .running)
    (h : exec i s = .next t) : t.status ≠ .halted := by
  rcases (exec_effect h).status_eq_or_errored with hkept | herr
  · simp [hkept, hs]
  · simp [herr]

/-- Of the answers that `step_next` lists, a running core reaches `HALTED` by the pc check alone. -/
theorem past_end_of_step_halted {s t : State} (hs : s.status = .running) (h : step s = .next t)
    (ht : t.status = .halted) : 20 ≤ s.x0.toInt := by
  rcases step_next h with ⟨hstopped, -⟩ | ⟨-, -, rfl⟩ | ⟨-, h20, -⟩ | ⟨-, -, -, -, rfl⟩ |
    ⟨-, -, -, i, -, hexec⟩
  · exact absurd hs hstopped
  · simp at ht
  · exact h20
  · simp at ht
  · exact absurd ht (exec_status_ne_halted hs hexec)

/-- Settles O4: the pc check halts past the end, and no other way of a running step does. -/
theorem successHaltExactlyPastTheEnd : Obligations.SuccessHaltExactlyPastTheEnd :=
  fun _ hs => ⟨step_of_past_end hs, fun _ => past_end_of_step_halted hs⟩

end Sys2Proof.Machine
end

section
/-! PROOFS. The load and store family: `load_word` and `store_word` whole (spec 41_load_store, R85,
R86). The two differ in their memory access alone, so the errors in their order (R77, R33) are proved
once, over any access. -/

namespace Sys2Proof

/-- Three bytes whose first announces a length of three decode, whatever follows (R56). -/
theorem decode_of_instrLength_three {op : Byte} (hop : instrLength op = 3) (b1 b2 : Byte)
    (rest : List Byte) :
    decode (op :: b1 :: b2 :: rest) = .ok (selectVariant op b1 b2 (rest.getD 0 0), 3) := by
  rw [decode_cons, hop, if_neg (by simp)]
  rfl

end Sys2Proof

namespace Sys2Proof.Machine

/-! ### Operands -/

/-- A register byte below 3 names a register (R15). -/
theorem exists_regOf {b : Byte} (h : b.toNat < 3) : ∃ r, regOf b = some r :=
  Option.ne_none_iff_exists'.mp fun hnone => by
    have := regOf_eq_none.mp hnone
    omega

/-- A byte that reads a value as an operand names the register that holds it (R12, R15). -/
theorem OperandReads.exists_regOf {s : State} {b : Byte} {v : Word} (h : OperandReads s b v) :
    ∃ r, regOf b = some r ∧ readReg s r = v := by
  obtain ⟨rfl, rfl⟩ | ⟨rfl, rfl⟩ | ⟨rfl, rfl⟩ := h
  · exact ⟨.x0, regOf_zero, readReg_x0 s⟩
  · exact ⟨.x1, regOf_one, readReg_x1 s⟩
  · exact ⟨.x2, regOf_two, readReg_x2 s⟩

/-! ### The errors -/

@[simp] theorem withAccess_done {α : Type} (v : α) (s : State) (body : α → Result) :
    withAccess (.done v) s body = body v := rfl

@[simp] theorem withAccess_outOfBounds {α : Type} (o : Nat) (s : State) (body : α → Result) :
    withAccess (.outOfBounds o) s body = .next (raiseError (.outOfBounds o) s) := rfl

/-- With a valid register, an access that leaves the memory is the instruction's whole effect. -/
theorem withReg_withAccess_outOfBounds {α : Type} {reg : Byte} {s : State} {o : Nat}
    {access : Reg → Access α} {body : Reg → α → Result} (hreg : reg.toNat < 3)
    (hout : ∀ r, access r = .outOfBounds o) :
    withReg reg s (fun r => withAccess (access r) s (body r)) =
      .next (raiseError (.outOfBounds o) s) := by
  obtain ⟨r, hr⟩ := exists_regOf hreg
  rw [withReg_of_some hr, hout r, withAccess_outOfBounds]

/-- The offset of an `addr` operand is recorded in `ERR_INFO` as the operand byte itself (R22). -/
theorem raiseError_outOfBounds_toNat (addr : Byte) (s : State) :
    raiseError (.outOfBounds addr.toNat) s =
      { s with status := .errored, errCode := .outOfBounds, errInfo := addr } := by
  simp [raiseError, errorCode, errorInfo]

/-- Of the two offsets of an access from 19 up, the lowest outside the memory (R36). -/
theorem firstOutside_two_of_le {addr : Nat} (h : 19 ≤ addr) :
    firstOutside addr 2 = some (max addr 20) := by
  rw [firstOutside_two, if_neg (by omega)]
  by_cases h19 : addr = 19
  · rw [if_pos h19, h19]
    rfl
  · rw [if_neg h19, max_eq_left (by omega)]

theorem memRead_two_outOfBounds (m : Memory) {addr : Nat} (h : 19 ≤ addr) :
    memRead m addr 2 = .outOfBounds (max addr 20) := by
  rw [memRead, firstOutside_two_of_le h]

theorem memWrite_two_outOfBounds (m : Memory) {addr : Nat} (v : Nat) (h : 19 ≤ addr) :
    memWrite m addr 2 v = .outOfBounds (max addr 20) := by
  rw [memWrite, firstOutside_two_of_le h]

/-! ### `load_word` -/

theorem exec_loadWord_invalidRegister {reg : Byte} (addr : Byte) (s : State)
    (hreg : 3 ≤ reg.toNat) :
    exec (.loadWord reg addr) s = .next (raiseError .invalidRegister s) :=
  withReg_of_none (regOf_eq_none.mpr hreg) s _

theorem exec_loadWord_outOfBounds {reg addr : Byte} (s : State) (hreg : reg.toNat < 3)
    (haddr : 19 ≤ addr.toNat) :
    exec (.loadWord reg addr) s = .next (raiseError (.outOfBounds (max addr.toNat 20)) s) :=
  withReg_withAccess_outOfBounds hreg fun _ => memRead_two_outOfBounds s.mem haddr

/-- A load of two cells that hold values ends in the data write and the pc's advance (R85). -/
theorem exec_loadWord_done {reg addr lo hi : Byte} {r : Reg} {s : State} (hr : regOf reg = some r)
    (haddr : addr.toNat ≤ 18) (hlo : readCell s.mem addr.toNat = some lo)
    (hhi : readCell s.mem (addr.toNat + 1) = some hi) :
    exec (.loadWord reg addr) s = .next (writeBack r (s16 (lo.toNat + 256 * hi.toNat)) s) := by
  have hread : memRead s.mem (offsetOf addr) 2 = .done (lo.toNat + 256 * hi.toNat) := by
    rw [offsetOf, memRead_two, if_pos haddr, hlo, hhi]
  rw [exec, execLoadWord, withReg_of_some hr, hread, withAccess_done]

/-- Settles O8: one clause per way in which `load_word` ends, and `writeBack` at each register. -/
theorem loadWordMeaning : Obligations.LoadWordMeaning := by
  intro reg addr s
  refine ⟨rfl, decode_of_instrLength_three (by decide) reg addr,
    exec_loadWord_invalidRegister addr s, fun hreg hout => ?outside, fun hreg h19 => ?straddles,
    fun lo hi hin hlo hhi => ⟨fun h0 => ?toX0, fun h1 => ?toX1, fun h2 => ?toX2⟩⟩
  case outside =>
    rw [exec_loadWord_outOfBounds s hreg (by omega), max_eq_left hout, raiseError_outOfBounds_toNat]
  case straddles =>
    rw [exec_loadWord_outOfBounds s hreg (by omega), h19]
    rfl
  case toX0 =>
    have hr : regOf reg = some .x0 := (congrArg regOf h0).trans regOf_zero
    rw [exec_loadWord_done hr hin hlo hhi, writeBack_reg_x0]
  case toX1 =>
    have hr : regOf reg = some .x1 := (congrArg regOf h1).trans regOf_one
    rw [exec_loadWord_done hr hin hlo hhi, writeBack_reg_x1, s16]
  case toX2 =>
    have hr : regOf reg = some .x2 := (congrArg regOf h2).trans regOf_two
    rw [exec_loadWord_done hr hin hlo hhi, writeBack_reg_x2, s16]

/-! ### `store_word` -/

theorem exec_storeWord_invalidRegister {reg : Byte} (addr : Byte) (s : State)
    (hreg : 3 ≤ reg.toNat) :
    exec (.storeWord reg addr) s = .next (raiseError .invalidRegister s) :=
  withReg_of_none (regOf_eq_none.mpr hreg) s _

theorem exec_storeWord_outOfBounds {reg addr : Byte} (s : State) (hreg : reg.toNat < 3)
    (haddr : 19 ≤ addr.toNat) :
    exec (.storeWord reg addr) s = .next (raiseError (.outOfBounds (max addr.toNat 20)) s) :=
  withReg_withAccess_outOfBounds hreg fun _ => memWrite_two_outOfBounds s.mem _ haddr

/-- A store inside the memory writes the register's two bytes and advances the pc (R86). -/
theorem exec_storeWord_done {reg addr : Byte} {r : Reg} {s : State} (hr : regOf reg = some r)
    (haddr : addr.toNat ≤ 18) :
    exec (.storeWord reg addr) s = .next { s with
      x0 := s.x0 + 3
      mem := writeLittleEndian s.mem addr.toNat 2 (readReg s r).toNat } := by
  rw [exec, execStoreWord, withReg_of_some hr, offsetOf, u16, memWrite_two, if_pos haddr,
    withAccess_done, ← writeLittleEndian_two, setPc]

/-- What each cell reads after two bytes are written (R35). -/
theorem readCell_writeLittleEndian_two (m : Memory) (addr v o : Nat) :
    readCell (writeLittleEndian m addr 2 v) o =
      if addr + 1 = o then some (BitVec.ofNat 8 (v / 256))
      else if addr = o then some (BitVec.ofNat 8 v) else readCell m o := by
  rw [writeLittleEndian_two, readCell_writeCell, readCell_writeCell]

/-- Settles O9: the errors as for `load_word`, and the cells after the two bytes of the register are
written. -/
theorem storeWordMeaning : Obligations.StoreWordMeaning := by
  intro reg addr s
  refine ⟨rfl, decode_of_instrLength_three (by decide) reg addr,
    exec_storeWord_invalidRegister addr s, fun hreg hout => ?outside, fun hreg h19 => ?straddles,
    fun v hin hv => ?stored⟩
  case outside =>
    rw [exec_storeWord_outOfBounds s hreg (by omega), max_eq_left hout,
      raiseError_outOfBounds_toNat]
  case straddles =>
    rw [exec_storeWord_outOfBounds s hreg (by omega), h19]
    rfl
  case stored =>
    obtain ⟨r, hr, rfl⟩ := hv.exists_regOf
    refine ⟨_, exec_storeWord_done hr hin, ?low, ?high, fun o hlo hhi => ?others,
      fun hwf => writeLittleEndian_wf _ hwf (by rw [memSize_eq]; omega)⟩
    case low => rw [readCell_writeLittleEndian_two, if_neg (by omega), if_pos rfl]
    case high => rw [readCell_writeLittleEndian_two, if_pos rfl]
    case others => rw [readCell_writeLittleEndian_two, if_neg hhi.symm, if_neg hlo.symm]

end Sys2Proof.Machine
end

section
/-! PROOFS. The arithmetic family: `add` and `sub` whole, and the wrap-around of their results (spec
42_arithmetic, R90 to R92). The two instructions differ in their ALU operation alone, so what they
answer is proved once, over any operation. -/

namespace Sys2Proof.Machine

/-! ### The ALU (R90) -/

/-- A wrapped result differs from the exact integer by a multiple of 65536. -/
theorem exists_toInt_wrap16 (n : Int) : ∃ k : Int, (wrap16 n).toInt = n + 65536 * k := by
  refine ⟨-n.bdiv 65536, ?_⟩
  have hbmod : (wrap16 n).toInt = n.bmod 65536 := BitVec.toInt_ofInt n
  have hdiv : n.bmod 65536 + 65536 * n.bdiv 65536 = n := Int.bmod_add_bdiv n 65536
  rw [hbmod]
  omega

/-- A register value lies in the signed 16-bit range (R10). -/
theorem toInt_word_range (w : Word) : -32768 ≤ w.toInt ∧ w.toInt ≤ 32767 := by
  have hle : -2 ^ 15 ≤ w.toInt := BitVec.le_toInt w
  have hlt : w.toInt < 2 ^ 15 := BitVec.toInt_lt
  omega

/-- Settles O40: both operations answer `wrap16` of the exact integer, and on the bit patterns they
are addition and subtraction, which undo each other. -/
theorem aluWrapsModulo65536 : Obligations.AluWrapsModulo65536 := by
  refine ⟨fun a b => ⟨exists_toInt_wrap16 _, exists_toInt_wrap16 _, toInt_word_range _,
    toInt_word_range _, ?inverse⟩, by decide, by decide, by decide⟩
  case inverse => rw [aluAdd_eq, aluSub_eq, BitVec.add_sub_cancel]

/-! ### Instructions with two register operands -/

/-- One invalid register byte, in either position, is the whole effect (R77). -/
theorem withRegs_invalidRegister {a b : Byte} (h : 3 ≤ a.toNat ∨ 3 ≤ b.toNat) (s : State)
    (body : Reg → Reg → Result) :
    withRegs a b s body = .next (raiseError .invalidRegister s) := by
  rw [withRegs]
  cases ha : regOf a with
  | none => exact withReg_of_none ha s _
  | some ra =>
    have ha3 : ¬ 3 ≤ a.toNat := fun h3 => by simp [regOf_eq_none.mpr h3] at ha
    rw [withReg_of_some ha, withReg_of_none (regOf_eq_none.mpr (h.resolve_left ha3))]

/-- The body of an instruction that writes `op` of its two registers back to the first. -/
def aluBody (op : Word → Word → Word) (s : State) (ra rb : Reg) : Result :=
  .next (writeBack ra (op (readReg s ra) (readReg s rb)) s)

theorem exec_add (a b : Byte) (s : State) :
    exec (.add a b) s = withRegs a b s (aluBody aluAdd s) := rfl

theorem exec_sub (a b : Byte) (s : State) :
    exec (.sub a b) s = withRegs a b s (aluBody aluSub s) := rfl

/-- With valid registers, the result goes to the first operand's register and the pc advances. -/
theorem withRegs_aluBody {a b : Byte} {r : Reg} {v : Word} {s : State} (op : Word → Word → Word)
    (ha : regOf a = some r) (hb : OperandReads s b v) :
    withRegs a b s (aluBody op s) = .next (writeBack r (op (readReg s r) v) s) := by
  obtain ⟨rb, hrb, rfl⟩ := hb.exists_regOf
  rw [withRegs_of_some ha hrb, aluBody]

/-- The next state for each destination: at register 0 the result gives way to the pc's advance
(R13, R80), and nothing but the destination and the pc changes. -/
theorem withRegs_aluBody_destinations (a : Byte) {b : Byte} {v : Word} {s : State}
    (op : Word → Word → Word) (hb : OperandReads s b v) :
    (a = 0 → withRegs a b s (aluBody op s) = .next { s with x0 := s.x0 + 3 }) ∧
    (a = 1 → withRegs a b s (aluBody op s) =
      .next { s with x0 := s.x0 + 3, x1 := op s.x1 v }) ∧
    (a = 2 → withRegs a b s (aluBody op s) =
      .next { s with x0 := s.x0 + 3, x2 := op s.x2 v }) := by
  refine ⟨fun h0 => ?toX0, fun h1 => ?toX1, fun h2 => ?toX2⟩
  case toX0 =>
    have ha : regOf a = some .x0 := h0 ▸ regOf_zero
    rw [withRegs_aluBody op ha hb, writeBack_reg_x0]
  case toX1 =>
    have ha : regOf a = some .x1 := h1 ▸ regOf_one
    rw [withRegs_aluBody op ha hb, writeBack_reg_x1, readReg_x1]
  case toX2 =>
    have ha : regOf a = some .x2 := h2 ▸ regOf_two
    rw [withRegs_aluBody op ha hb, writeBack_reg_x2, readReg_x2]

/-! ### `add` and `sub` -/

/-- Settles O10: the shared clauses at `aluAdd`, which is the sum's `BitVec.ofInt 16`. -/
theorem addMeaning : Obligations.AddMeaning := by
  intro a b s
  rw [exec_add]
  exact ⟨rfl, decode_of_instrLength_three (by decide) a b,
    fun hinvalid => withRegs_invalidRegister hinvalid s _,
    fun _ hb => withRegs_aluBody_destinations a aluAdd hb⟩

/-- Settles O11: the shared clauses at `aluSub`, which is the difference's `BitVec.ofInt 16`. -/
theorem subMeaning : Obligations.SubMeaning := by
  intro a b s
  rw [exec_sub]
  exact ⟨rfl, decode_of_instrLength_three (by decide) a b,
    fun hinvalid => withRegs_invalidRegister hinvalid s _,
    fun _ hb => withRegs_aluBody_destinations a aluSub hb⟩

end Sys2Proof.Machine
end

section
/-! PROOFS. The control family: `branch_if_eq` and `unknown` whole (spec 43_control, R95, R97). -/

namespace Sys2Proof

/-- The one four-byte instruction decodes from its four bytes, whatever follows (R52, R55). -/
theorem decode_branchIfEq (a b t : Byte) (rest : List Byte) :
    decode (0x06 :: a :: b :: t :: rest) = .ok (.branchIfEq a b t, 4) := by
  have hfour : instrLength 0x06 = 4 := by decide
  rw [decode_cons, hfour, if_neg (by simp)]
  rfl

/-- `unknown` carries a byte that differs from each of the seven named opcodes (R55). -/
theorem unknown_wf_iff_ne (b : Byte) :
    (Instr.unknown b).wf = true ↔
      b ≠ 0x01 ∧ b ≠ 0x02 ∧ b ≠ 0x03 ∧ b ≠ 0x04 ∧ b ≠ 0x05 ∧ b ≠ 0x06 ∧ b ≠ 0xff := by
  simp [Instr.wf, namedOpcodes]

/-- The same bytes, by the numbers they stand for (R55). -/
theorem unknown_wf_iff (b : Byte) :
    (Instr.unknown b).wf = true ↔ b = 0x00 ∨ (0x07 ≤ b.toNat ∧ b.toNat ≤ 0xfe) := by
  rw [unknown_wf_iff_ne]
  bv_omega

/-- A byte outside the table's rows selects the fall-through, whatever the operand positions hold. -/
theorem selectVariant_of_unknown_wf {b : Byte} (hb : (Instr.unknown b).wf = true) (b1 b2 b3 : Byte) :
    selectVariant b b1 b2 b3 = .unknown b := by
  obtain ⟨hload, hstore, hadd, hsub, himm, hbranch, hhalt⟩ := (unknown_wf_iff_ne b).mp hb
  rw [selectVariant, if_neg hload, if_neg hstore, if_neg hadd, if_neg hsub, if_neg himm,
    if_neg hbranch, if_neg hhalt]

/-- An unknown opcode stands alone: its length is 1 (R51). -/
theorem instrLength_of_unknown_wf {b : Byte} (hb : (Instr.unknown b).wf = true) :
    instrLength b = 1 := by
  rw [unknown_wf_iff] at hb
  rw [instrLength_eq_of_toNat, if_neg (by bv_omega), if_neg (by bv_omega)]

/-- An unknown byte decodes on its own, whatever follows, so its decoding is never truncated (R97). -/
theorem decode_unknown {b : Byte} (hb : (Instr.unknown b).wf = true) (rest : List Byte) :
    decode (b :: rest) = .ok (.unknown b, 1) := by
  rw [decode_cons, instrLength_of_unknown_wf hb, selectVariant_of_unknown_wf hb, if_neg (by omega)]

end Sys2Proof

namespace Sys2Proof.Machine

/-! ### `branch_if_eq` (R95) -/

/-- With valid registers a branch writes the pc alone, by the comparison of the two values. -/
theorem exec_branchIfEq_of_reads {a b : Byte} {va vb : Word} {s : State} (t : Byte)
    (ha : OperandReads s a va) (hb : OperandReads s b vb) :
    exec (.branchIfEq a b t) s =
      .next (setPc (if equalWords va vb then zext16 t else s.x0 + 4) s) := by
  obtain ⟨ra, hra, rfl⟩ := ha.exists_regOf
  obtain ⟨rb, hrb, rfl⟩ := hb.exists_regOf
  exact withRegs_of_some hra hrb s _

/-- Settles O13: the pc of `exec_branchIfEq_of_reads` for equal and for unequal values. -/
theorem branchIfEqMeaning : Obligations.BranchIfEqMeaning := by
  intro a b t s
  refine ⟨rfl, decode_branchIfEq a b t, fun hinvalid => withRegs_invalidRegister hinvalid s _,
    fun va vb ha hb => ⟨fun heq => ?taken, fun hne => ?untaken⟩⟩
  case taken =>
    rw [exec_branchIfEq_of_reads t ha hb, if_pos (equalWords_iff.mpr heq), zext16,
      BitVec.ofNat_toNat, setPc]
  case untaken =>
    rw [exec_branchIfEq_of_reads t ha hb, if_neg (mt equalWords_iff.mp hne), setPc]

/-! ### `unknown` (R97) -/

theorem exec_unknown (b : Byte) (s : State) :
    exec (.unknown b) s = .next (raiseError .unknownInstruction s) := rfl

/-- A pc that passes the two signed checks of the step is an offset of the memory (R72 to R74). -/
theorem toNat_lt_of_inside {w : Word} (h0 : 0 ≤ w.toInt) (h20 : w.toInt < 20) : w.toNat < 20 := by
  have hcond := BitVec.toInt_eq_toNat_cond w
  split at hcond <;> omega

/-- Fetch asks for no cell but the opcode's own when that names no other variant (R74, R75). -/
theorem fetch_unknown {m : Memory} {p : Nat} {b : Byte} (hb : (Instr.unknown b).wf = true)
    (hp : p < 20) (hcell : readCell m p = some b) : fetch m p = .instr (.unknown b) := by
  obtain ⟨rest, hslice⟩ : ∃ rest, fetchSlice m p = [b] ++ rest :=
    loadedFrom_prefix (by simp; omega) fun k hk => by
      obtain rfl : k = 0 := by simpa using hk
      exact hcell
  have hfits : ¬ Config.memSize < p + instrLength b := by
    rw [instrLength_of_unknown_wf hb, memSize_eq]
    omega
  simp only [fetch, hcell, if_neg hfits, hslice, List.singleton_append, decode_unknown hb]

/-- A running core's step over an unknown byte raises the error at every offset, 19 included. -/
theorem step_of_unknown {s : State} {b : Byte} (hb : (Instr.unknown b).wf = true)
    (hs : s.status = .running) (h0 : 0 ≤ s.x0.toInt) (h20 : s.x0.toInt < 20)
    (hcell : readCell s.mem s.x0.toNat = some b) :
    step s = .next (raiseError .unknownInstruction s) := by
  rw [step_of_inside hs h0 h20, fetchAndExec, fetch_unknown hb (toNat_lt_of_inside h0 h20) hcell]
  exact exec_unknown b s

/-- Settles O15: the named bytes are the well-formed `unknown`s, which decode alone and are fetched
alone. -/
theorem unknownMeaning : Obligations.UnknownMeaning := by
  refine ⟨exec_unknown, fun b hrange => ?_⟩
  have hb : (Instr.unknown b).wf = true := (unknown_wf_iff b).mpr hrange
  exact ⟨rfl, decode_unknown hb, fun s => step_of_unknown hb⟩

end Sys2Proof.Machine
end

section
/-! PROOFS. The exceptions family: the register check comes before any effect of a body (spec
60_exceptions, R104), and the success halt is no error (R112). -/

namespace Sys2Proof.Machine

/-! ### `InvalidRegister` (R104) -/

theorem exec_addImmediate_invalidRegister {reg : Byte} (k : Byte) (s : State)
    (hreg : 3 ≤ reg.toNat) :
    exec (.addImmediate reg k) s = .next (raiseError .invalidRegister s) :=
  withReg_of_none (regOf_eq_none.mpr hreg) s _

/-- Settles O16: the instructions with one register operand by their own error lemmas, and those with
two by the register check that they share, once for each position of the invalid byte. -/
theorem invalidRegisterBeforeAnything : Obligations.InvalidRegisterBeforeAnything := by
  rintro s _ a b k ha rfl
  have hfirst : ∀ body, withRegs a b s body = .next (raiseError .invalidRegister s) :=
    withRegs_invalidRegister (.inl ha) s
  have hsecond : ∀ body, withRegs b a s body = .next (raiseError .invalidRegister s) :=
    withRegs_invalidRegister (.inr ha) s
  exact ⟨exec_loadWord_invalidRegister k s ha, exec_storeWord_invalidRegister k s ha,
    hfirst _, hsecond _, hfirst _, hsecond _, exec_addImmediate_invalidRegister k s ha,
    hfirst _, hsecond _⟩

/-! ### The success halt (R112) -/

/-- In consistent status registers only an `ERRORED` core holds an error (R21, R22). -/
theorem StatusConsistent.no_error {s : State} (hc : StatusConsistent s) (hs : s.status ≠ .errored) :
    s.errCode = .none ∧ s.errInfo = 0 := by
  obtain ⟨herrored, hinfo, -⟩ := hc
  have hcode : s.errCode = .none := not_not.mp (mt herrored.mpr hs)
  exact ⟨hcode, hinfo (by simp [hcode])⟩

/-- Settles O5: the halt writes `STATUS` alone, and a running core holds no error. -/
theorem successHaltIsNoError : Obligations.SuccessHaltIsNoError := by
  intro s hs hc h20
  obtain ⟨hcode, hinfo⟩ := hc.no_error (by simp [hs])
  exact ⟨haltSuccess s, step_of_past_end hs h20, haltSuccess_status s,
    (haltSuccess_errCode s).trans hcode, (haltSuccess_errInfo s).trans hinfo⟩

end Sys2Proof.Machine
end

section
/-! PROOFS. The round trip of the decoder and the encoder, the words of the decoder vectors, and the
only way in which a disassembly fails (spec 30_encoding, R55 to R57, R62 to R66). -/

namespace Sys2Proof

/-! ### The round trip -/

/-- Settles O34: a format of three bytes, the one of four, and the two that are the opcode alone. -/
theorem decodeOfEncode : Obligations.DecodeOfEncode := by
  intro i rest hwf
  cases i with
  | loadWord reg addr => exact decode_of_instrLength_three (by decide) reg addr rest
  | storeWord reg addr => exact decode_of_instrLength_three (by decide) reg addr rest
  | add a b => exact decode_of_instrLength_three (by decide) a b rest
  | sub a b => exact decode_of_instrLength_three (by decide) a b rest
  | addImmediate reg k => exact decode_of_instrLength_three (by decide) reg k rest
  | branchIfEq a b t => exact decode_branchIfEq a b t rest
  | halt => rfl
  | unknown b => exact decode_unknown hwf rest

/-- Settles O35: the answer is what `selectVariant` makes, and the bytes are cut at its length. -/
theorem encodeOfDecode : Obligations.EncodeOfDecode := by
  intro bytes i n h
  obtain ⟨hi, hlen⟩ := encode_of_decode h
  refine ⟨?wellFormed, ?length, bytes.drop n, ?bytes⟩
  case wellFormed =>
    obtain ⟨op, operands, -, -, -, rfl⟩ := decode_ok h
    exact selectVariant_wf op _ _ _
  case length => rw [hi, List.length_take_of_le hlen]
  case bytes => rw [hi, List.take_append_drop]

/-- Bytes behind a decoded instruction do not change what is decoded (R56). -/
theorem decode_append_of_ok {bytes : List Byte} {i : Instr} {n : Nat}
    (h : decode bytes = .ok (i, n)) (tail : List Byte) : decode (bytes ++ tail) = .ok (i, n) := by
  obtain ⟨hwf, hn, rest, rfl⟩ := encodeOfDecode bytes i n h
  rw [List.append_assoc, decodeOfEncode i (rest ++ tail) hwf, hn]

/-- Settles O37: the two branches of `decode_cons`. -/
theorem decodeIsTotal : Obligations.DecodeIsTotal := by
  intro op rest
  rw [decode_cons]
  exact ⟨fun hshort => if_pos hshort, fun hlong => ⟨_, if_neg (by omega)⟩⟩

/-- Settles O38: each word but the last is an encoding, with the bytes that follow it. -/
theorem writtenWordsDecode : Obligations.WrittenWordsDecode :=
  ⟨decodeOfEncode (.loadWord 1 0x10) [] rfl, decodeOfEncode (.storeWord 0 0x13) [] rfl,
    decodeOfEncode (.add 2 1) [] rfl, decodeOfEncode (.sub 255 128) [] rfl,
    decodeOfEncode (.addImmediate 1 255) [] rfl, decodeOfEncode (.branchIfEq 1 2 7) [] rfl,
    decodeOfEncode .halt [0x01, 0x02] rfl, decodeOfEncode (.unknown 0x07) [0x01, 0x02, 0x03] rfl,
    (decodeIsTotal 0x06 [0x01, 0x02]).1 (by decide)⟩

/-- A non-empty sequence that does not decode is truncated (R57). -/
theorem decode_cons_error {op : Byte} {operands : List Byte} {e : DecodeError}
    (h : decode (op :: operands) = .error e) : e = .truncated := by
  rw [decode_cons] at h
  split at h
  · cases h; rfl
  · cases h

end Sys2Proof

namespace Sys2Proof.Machine

/-! ### The disassembler -/

/-- `bytes` are whole well-formed instructions and, behind them, a truncated one (R66). -/
def EndsTruncated (bytes : List Byte) : Prop :=
  ∃ (whole : List Instr) (tail : List Byte), (∀ i ∈ whole, i.wf = true) ∧
    bytes = (whole.map encode).flatten ++ tail ∧ decode tail = .error .truncated

theorem endsTruncated_of_decode {bytes : List Byte} (h : decode bytes = .error .truncated) :
    EndsTruncated bytes := ⟨[], bytes, by simp, rfl, h⟩

/-- A well-formed instruction in front changes nothing of it. -/
theorem EndsTruncated.encode_append {i : Instr} {bytes : List Byte} (hi : i.wf = true)
    (h : EndsTruncated bytes) : EndsTruncated (encode i ++ bytes) := by
  obtain ⟨whole, tail, hwhole, rfl, htail⟩ := h
  exact ⟨i :: whole, tail, List.forall_mem_cons.mpr ⟨hi, hwhole⟩, by simp, htail⟩

/-- A sweep that fails does so at its first instruction or in the sweep of the bytes behind it. -/
theorem sweepWithin_cons_error {n : Nat} {b : Byte} {bs : List Byte} {e : DecodeError}
    (h : sweepWithin (n + 1) (b :: bs) = .error e) :
    decode (b :: bs) = .error e ∨
    ∃ i len, decode (b :: bs) = .ok (i, len) ∧ sweepWithin n ((b :: bs).drop len) = .error e := by
  simp only [sweepWithin] at h
  split at h
  · next hd => cases h; exact .inl hd
  · next i len hd =>
    split at h
    · next hrest => cases h; exact .inr ⟨i, len, hd, hrest⟩
    · cases h

/-- A sweep whose bound is not below the number of bytes fails at a truncated tail alone: each
instruction takes a byte at least, so the bound is never met (R66; log 15). -/
theorem sweepWithin_error {n : Nat} {bytes : List Byte} {e : DecodeError} (hn : bytes.length ≤ n)
    (h : sweepWithin n bytes = .error e) : e = .truncated ∧ EndsTruncated bytes := by
  induction n generalizing bytes with
  | zero =>
    cases bytes with
    | nil => cases h
    | cons b bs => simp at hn
  | succ n ih =>
    cases bytes with
    | nil => cases h
    | cons b bs =>
      rcases sweepWithin_cons_error h with hd | ⟨i, len, hd, hrest⟩
      · obtain rfl := decode_cons_error hd
        exact ⟨rfl, endsTruncated_of_decode hd⟩
      · obtain ⟨hwf, -, -⟩ := encodeOfDecode _ _ _ hd
        obtain ⟨hi, -⟩ := encode_of_decode hd
        obtain ⟨op, -, -, hlen, -, -⟩ := decode_ok hd
        have hpos : 0 < len := hlen ▸ instrLength_pos op
        obtain ⟨he, htail⟩ := ih (by simp at hn ⊢; omega) hrest
        refine ⟨he, ?_⟩
        rw [← List.take_append_drop len (b :: bs), ← hi]
        exact htail.encode_append hwf

/-- Settles O50: a disassembly fails as its sweep does, whose bound is the number of bytes. -/
theorem disassemblyFailsOnlyAtATruncatedTail :
    Obligations.DisassemblyFailsOnlyAtATruncatedTail := by
  intro bytes e h
  have hsweep : sweep bytes = .error e := by
    unfold disassemble at h
    split at h
    · cases h
    · next he => cases h; exact he
  exact sweepWithin_error le_rfl hsweep

/-- Settles O51: a rendering is the string of its characters, which are computed. -/
theorem renderingsOfTheTable : Obligations.RenderingsOfTheTable := by
  refine ⟨?_, ?_, ?_, ?_, ?_, ?_, ?_, ?_⟩ <;> decide

end Sys2Proof.Machine
end

section
/-! PROOFS. The laws of memory beyond one access: what `MemWrite` of one byte does, the canonical form
as a normal form, memories whose 20 cells are filled, and the slice of fetch (spec 20_memory, R35, R44;
30_encoding, R57; log 1). -/

namespace Sys2Proof.Machine

/-! ### `MemWrite` (R35) -/

/-- All that a one-byte write can answer (R35). -/
theorem memWrite_one (m : Memory) (addr v : Nat) :
    memWrite m addr 1 v =
      if addr ≤ 19 then .done (writeCell m addr (BitVec.ofNat 8 v)) else .outOfBounds addr := by
  unfold memWrite
  rw [firstOutside_one]
  by_cases h : addr ≤ 19
  · rw [if_pos h, if_pos h]
    rfl
  · rw [if_neg h, if_neg h]

/-- Settles O45: each clause picks one branch of `memWrite_one` or `memWrite_two`, and the cells are
those after one or two writes. -/
theorem memWriteOfOneAndTwoBytes : Obligations.MemWriteOfOneAndTwoBytes := by
  intro m addr v _
  refine ⟨fun hout => ⟨?one, ?two⟩, fun h19 => ?straddles,
    fun hin => ⟨_, (memWrite_one m addr v).trans (if_pos hin), readCell_writeCell_same m addr _,
      fun o ho => readCell_writeCell_ne m _ ho.symm⟩,
    fun hin => ⟨_, (memWrite_two m addr v).trans (if_pos hin), ?low, ?high,
      fun o hlo hhi => ?others⟩⟩
  case one => rw [memWrite_one, if_neg (by omega)]
  case two => rw [memWrite_two, if_neg (by omega), if_neg (by omega)]
  case straddles => rw [memWrite_two, if_neg (by omega), if_pos h19]
  case low => rw [readCell_writeCell_ne _ _ (by omega), readCell_writeCell_same]
  case high => rw [readCell_writeCell_same]
  case others => rw [readCell_writeCell_ne _ _ hhi.symm, readCell_writeCell_ne _ _ hlo.symm]

/-! ### The canonical form (log 1) -/

/-- What a cell reads is listed in the memory. -/
theorem mem_of_readCell {m : Memory} {o : Nat} {b : Byte} (h : readCell m o = some b) :
    (o, b) ∈ m := by
  induction m with
  | nil => cases h
  | cons c m ih =>
    obtain ⟨k, v⟩ := c
    rw [readCell] at h
    split at h
    · next hk => cases h; exact hk ▸ List.mem_cons_self
    · exact List.mem_cons_of_mem _ (ih h)

/-- Where the offsets rise strictly, each entry is read: none before it has its offset. -/
theorem readCell_of_mem {m : Memory} (hm : m.Pairwise fun c d => c.1 < d.1) {o : Nat} {b : Byte}
    (h : (o, b) ∈ m) : readCell m o = some b := by
  induction m with
  | nil => cases h
  | cons c m ih =>
    obtain ⟨hhead, htail⟩ := List.pairwise_cons.mp hm
    rw [readCell]
    rcases List.mem_cons.mp h with rfl | hin
    · exact if_pos rfl
    · rw [if_neg (hhead _ hin).ne, ih htail hin]

/-- Settles O46: the entries of a canonical memory are what its cells read, and a strictly rising
list is determined by its entries. -/
theorem canonicalMemoriesAreEqualData : Obligations.CanonicalMemoriesAreEqualData := by
  rintro m m' ⟨hm, -⟩ ⟨hm', -⟩ hread
  have : Std.Antisymm fun c d : Host.Cell => c.1 < d.1 :=
    ⟨fun _ _ hcd hdc => absurd hdc hcd.asymm⟩
  have : Std.Irrefl fun c d : Host.Cell => c.1 < d.1 := ⟨fun _ => Nat.lt_irrefl _⟩
  refine hm.eq_of_mem_iff hm' fun c => ⟨fun hc => ?_, fun hc => ?_⟩
  · exact mem_of_readCell ((hread c.1).symm.trans (readCell_of_mem hm hc))
  · exact mem_of_readCell ((hread c.1).trans (readCell_of_mem hm' hc))

/-! ### Filled memories -/

/-- A write fills its cell and empties none. -/
theorem readCell_writeCell_filled {m : Memory} {a : Nat} (o : Nat) (b : Byte)
    (h : ∃ v, readCell m a = some v) : ∃ v, readCell (writeCell m o b) a = some v := by
  rw [readCell_writeCell]
  split
  · exact ⟨b, rfl⟩
  · exact h

/-- Where the `n` cells from `p` up are filled, the slice reaches over all of them. -/
theorem loadedFrom_length_of_filled {m : Memory} {p n : Nat}
    (h : ∀ o, p ≤ o → o < p + n → ∃ b, readCell m o = some b) : (loadedFrom m p n).length = n := by
  induction n generalizing p with
  | zero => rfl
  | succ n ih =>
    obtain ⟨b, hb⟩ := h p le_rfl (by omega)
    have htail := ih (p := p + 1) fun o hlo hhi => h o (by omega) (by omega)
    simp [loadedFrom, hb, htail]

/-! ### Fetch (R74, R75) -/

theorem fetch_notLoaded_of_none {m : Memory} {p : Nat} (h : readCell m p = none) :
    fetch m p = .notLoaded := by
  rw [fetch, h]

/-- Bytes that lie in the memory from `p` up and decode as a whole are what fetch finds there. -/
theorem fetch_of_bytes {m : Memory} {p : Nat} {bytes : List Byte} {i : Instr}
    (hend : p + bytes.length ≤ 20)
    (hcells : ∀ k, (hk : k < bytes.length) → readCell m (p + k) = some bytes[k])
    (hd : decode bytes = .ok (i, bytes.length)) : fetch m p = .instr i := by
  obtain ⟨op, operands, rfl, hlen, -, -⟩ := decode_ok hd
  have hop : readCell m p = some op := hcells 0 (by simp)
  obtain ⟨tail, hslice⟩ : ∃ tail, fetchSlice m p = (op :: operands) ++ tail :=
    loadedFrom_prefix (by rw [memSize_eq]; omega) hcells
  have hfits : ¬ Config.memSize < p + instrLength op := by rw [← hlen, memSize_eq]; omega
  simp only [fetch, hop, if_neg hfits, hslice, decode_append_of_ok hd tail]

/-- The slice begins with the byte of the cell that it is fetched from. -/
theorem fetchSlice_eq_cons {m : Memory} {p : Nat} {op : Byte} (hp : p < 20)
    (h : readCell m p = some op) : ∃ rest, fetchSlice m p = op :: rest :=
  loadedFrom_prefix (bs := [op]) (by simp; omega) fun k hk => by
    obtain rfl : k = 0 := by simpa using hk
    exact h

/-- In a filled memory fetch finds an instruction or the truncation of one at every offset. -/
theorem Loaded.fetch_ne_notLoaded {s : State} {p : Nat} (h : Loaded s) (hp : p < 20) :
    fetch s.mem p ≠ .notLoaded := by
  obtain ⟨op, hop⟩ := h p hp
  by_cases hfits : Config.memSize < p + instrLength op
  · rw [fetch_truncated.mpr ⟨op, hop, hfits⟩]
    simp
  · have hlen : (fetchSlice s.mem p).length = 20 - p :=
      loadedFrom_length_of_filled fun o _ ho => h o (by rw [memSize_eq] at ho ⊢; omega)
    obtain ⟨rest, hslice⟩ := fetchSlice_eq_cons hp hop
    have hlong : instrLength op ≤ rest.length + 1 := by
      rw [hslice, List.length_cons] at hlen
      rw [memSize_eq] at hfits
      omega
    obtain ⟨i, hi⟩ := (decodeIsTotal op rest).2 hlong
    simp [fetch, hop, hfits, hslice, hi]

/-- The slice depends on the cells that it reaches over alone. -/
theorem loadedFrom_congr {m m' : Memory} {p n : Nat}
    (h : ∀ o, p ≤ o → o < p + n → readCell m o = readCell m' o) :
    loadedFrom m p n = loadedFrom m' p n := by
  induction n generalizing p with
  | zero => rfl
  | succ n ih =>
    have hhead := h p le_rfl (by omega)
    have htail := ih (p := p + 1) fun o hlo hhi => h o (by omega) (by omega)
    rw [loadedFrom, loadedFrom, hhead, htail]

/-- Settles O39: fetch reads the opcode's cell and the slice, which ends at offset 19. -/
theorem fetchReadsOnlyTheTwentyCells : Obligations.FetchReadsOnlyTheTwentyCells := by
  intro m m' p hp h
  have hslice : fetchSlice m p = fetchSlice m' p :=
    loadedFrom_congr fun o _ ho => h o (by rw [memSize_eq] at ho; omega)
  rw [fetch, fetch, h p hp, hslice]

end Sys2Proof.Machine
end

section
/-! PROOFS. The bodies: what each leaves unchanged, and where the model stops in one (spec 10_state,
R14; 40_step_cycle, R78; 60_exceptions, R106; log 1). The facts are read off the list of effects
once, one lemma for each part of the state. -/

namespace Sys2Proof.Machine

/-! ### The parts of the state under an effect -/

/-- The errors that body `i` can raise, each with what it asks of `i` (R101, R103, R104). -/
inductive Raises (i : Instr) : Error → Prop where
  | invalidRegister (hi : (∀ b, i ≠ .unknown b) ∧ i ≠ .halt) : Raises i .invalidRegister
  | unknownInstruction (b : Byte) (hi : i = .unknown b) : Raises i .unknownInstruction
  /-- The lowest offset outside the memory is recorded (R36). -/
  | outOfBounds (reg addr : Byte) (hi : i = .loadWord reg addr ∨ i = .storeWord reg addr)
      (ha : 19 ≤ addr.toNat) : Raises i (.outOfBounds (max addr.toNat 20))

/-- The three status registers are those of the state before. -/
def KeepsStatus (s t : State) : Prop :=
  t.status = s.status ∧ t.errCode = s.errCode ∧ t.errInfo = s.errInfo

theorem keepsStatus_setPc (v : Word) (s : State) : KeepsStatus s (setPc v s) := ⟨rfl, rfl, rfl⟩

theorem keepsStatus_writeBack (r : Reg) (v : Word) (s : State) : KeepsStatus s (writeBack r v s) :=
  ⟨writeBack_status r v s, writeBack_errCode r v s, writeBack_errInfo r v s⟩

/-- A body enters an error and does nothing else, or it leaves the status registers alone (R106). -/
theorem Effect.raises_or_keepsStatus {i : Instr} {s t : State} (h : Effect i s t) :
    (∃ e, Raises i e ∧ t = raiseError e s) ∨ (KeepsStatus s t ∧ ∀ b, i ≠ .unknown b) := by
  cases h with
  | invalidRegister hi ht => exact .inl ⟨_, .invalidRegister hi, ht⟩
  | unknownInstruction b hi ht => exact .inl ⟨_, .unknownInstruction b hi, ht⟩
  | outOfBounds reg addr o hi ha ho ht =>
    have hmax : o = max addr.toNat 20 := by rw [ho]; split <;> omega
    exact .inl ⟨_, .outOfBounds reg addr hi ha, hmax ▸ ht⟩
  | load _ _ _ _ _ hi _ _ _ _ ht => exact .inr ⟨ht ▸ keepsStatus_writeBack _ _ s, by simp [hi]⟩
  | store _ _ _ _ hi _ _ _ ht => exact .inr ⟨ht ▸ keepsStatus_setPc _ _, by simp [hi]⟩
  | arithmetic _ _ _ _ hi _ ht =>
    exact .inr ⟨ht ▸ keepsStatus_writeBack _ _ s, by rcases hi with rfl | rfl | rfl <;> simp⟩
  | taken _ _ _ _ _ hi _ _ _ ht => exact .inr ⟨ht ▸ keepsStatus_setPc _ s, by simp [hi]⟩
  | untaken _ _ _ _ _ hi _ _ _ ht => exact .inr ⟨ht ▸ keepsStatus_setPc _ s, by simp [hi]⟩
  | halt hi ht => exact .inr ⟨ht ▸ keepsStatus_setPc _ s, by simp [hi]⟩

/-- A byte that names a register is below 3 (R15). -/
theorem toNat_lt_of_regOf {b : Byte} {r : Reg} (h : regOf b = some r) : b.toNat < 3 := by
  by_contra hge
  rw [regOf_eq_none.mpr (by omega)] at h
  cases h

/-- A body leaves the memory as it was, or stores two bytes into it as a `store_word` with a valid
register and both cells inside (R23, R86). -/
theorem Effect.mem_eq_or_stores {i : Instr} {s t : State} (h : Effect i s t) :
    t.mem = s.mem ∨ ∃ (reg addr : Byte) (v : Nat), i = .storeWord reg addr ∧ reg.toNat < 3 ∧
      addr.toNat ≤ 18 ∧ t.mem = writeLittleEndian s.mem addr.toNat 2 v := by
  cases h with
  | invalidRegister _ ht => exact .inl (by rw [ht, raiseError_mem])
  | unknownInstruction _ _ ht => exact .inl (by rw [ht, raiseError_mem])
  | outOfBounds _ _ _ _ _ _ ht => exact .inl (by rw [ht, raiseError_mem])
  | load _ _ _ _ _ _ _ _ _ _ ht => exact .inl (by rw [ht, writeBack_mem])
  | store reg addr r m hi hr ha hm ht =>
    refine .inr ⟨reg, addr, u16 (readReg s r), hi, toNat_lt_of_regOf hr, ha, ?_⟩
    rw [ht, setPc_mem, hm, writeLittleEndian_two]
  | arithmetic _ _ _ _ _ _ ht => exact .inl (by rw [ht, writeBack_mem])
  | taken _ _ _ _ _ _ _ _ _ ht => exact .inl (by rw [ht, setPc_mem])
  | untaken _ _ _ _ _ _ _ _ _ ht => exact .inl (by rw [ht, setPc_mem])
  | halt _ ht => exact .inl (by rw [ht, setPc_mem])

/-- The operand byte of an instruction's data destination (R14); the others have none. -/
def destination : Instr → Option Byte
  | .loadWord d _ | .add d _ | .sub d _ | .addImmediate d _ => some d
  | .storeWord _ _ | .branchIfEq _ _ _ | .halt | .unknown _ => none

theorem readReg_raiseError (e : Error) (s : State) (q : Reg) :
    readReg (raiseError e s) q = readReg s q := by cases q <;> rfl

theorem readReg_setPc_of_ne (v : Word) (s : State) {q : Reg} (hq : q ≠ .x0) :
    readReg (setPc v s) q = readReg s q := by
  cases q with
  | x0 => exact absurd rfl hq
  | x1 => rfl
  | x2 => rfl

/-- A register other than the pc keeps its value unless it is the data destination (R14). -/
theorem Effect.readReg_eq {i : Instr} {s t : State} (h : Effect i s t) {q : Reg} (hq : q ≠ .x0)
    (hd : ∀ d, destination i = some d → regOf d ≠ some q) : readReg t q = readReg s q := by
  have hwritten : ∀ {d r v}, destination i = some d → regOf d = some r →
      readReg (writeBack r v s) q = readReg s q := fun {d r v} hi hr =>
    readReg_writeBack_of_ne v s hq fun hqr => hd d hi (hqr ▸ hr)
  cases h with
  | invalidRegister _ ht => rw [ht, readReg_raiseError]
  | unknownInstruction _ _ ht => rw [ht, readReg_raiseError]
  | outOfBounds _ _ _ _ _ _ ht => rw [ht, readReg_raiseError]
  | load _ _ _ _ _ hi hr _ _ _ ht => rw [ht, hwritten (by rw [hi]; rfl) hr]
  | store _ _ _ _ _ _ _ _ ht => rw [ht, readReg_setPc_of_ne _ _ hq]; cases q <;> rfl
  | arithmetic _ _ _ _ hi hr ht => rw [ht, hwritten (by rcases hi with rfl | rfl | rfl <;> rfl) hr]
  | taken _ _ _ _ _ _ _ _ _ ht => rw [ht, readReg_setPc_of_ne _ s hq]
  | untaken _ _ _ _ _ _ _ _ _ ht => rw [ht, readReg_setPc_of_ne _ s hq]
  | halt _ ht => rw [ht, readReg_setPc_of_ne _ s hq]

/-- An instruction with no data destination writes no register but the pc. -/
theorem Effect.registers_eq {i : Instr} {s t : State} (h : Effect i s t)
    (hi : destination i = none) : t.x1 = s.x1 ∧ t.x2 = s.x2 :=
  ⟨h.readReg_eq (q := .x1) (by simp) (by simp [hi]),
    h.readReg_eq (q := .x2) (by simp) (by simp [hi])⟩

/-! ### Frames -/

/-- Every body but that of `store_word` leaves the memory as it was (R23). -/
theorem Effect.mem_eq {i : Instr} {s t : State} (h : Effect i s t)
    (hi : ∀ reg addr, i ≠ .storeWord reg addr) : t.mem = s.mem := by
  rcases h.mem_eq_or_stores with hmem | ⟨reg, addr, _, rfl, -⟩
  · exact hmem
  · exact absurd rfl (hi reg addr)

/-- The code of an error that a body raises, unless the body is `unknown`'s (R101, R104). -/
theorem Raises.errorCode_eq {i : Instr} {e : Error} (h : Raises i e) (hi : ∀ b, i ≠ .unknown b) :
    errorCode e = .invalidRegister ∨ errorCode e = .outOfBounds := by
  cases h with
  | invalidRegister => exact .inl rfl
  | unknownInstruction b hb => exact absurd hb (hi b)
  | outOfBounds => exact .inr rfl

/-- Only the byte 1 names register 1 (R15). -/
theorem eq_one_of_regOf {d : Byte} (h : regOf d = some .x1) : d = 1 := by
  simpa using regOf_eq_some h

/-- Only the byte 2 names register 2 (R15). -/
theorem eq_two_of_regOf {d : Byte} (h : regOf d = some .x2) : d = 2 := by
  simpa using regOf_eq_some h

/-- Settles O19: the parts of the state, one by one, at the destination `d`. -/
theorem registerWritersFrame : Obligations.RegisterWritersFrame := by
  intro i d x s t hi h
  have heff := exec_effect h
  have hdest : destination i = some d := by rcases hi with rfl | rfl | rfl | rfl <;> rfl
  have hstore : ∀ reg addr, i ≠ .storeWord reg addr := by
    rcases hi with rfl | rfl | rfl | rfl <;> simp
  have hunknown : ∀ b, i ≠ .unknown b := by rcases hi with rfl | rfl | rfl | rfl <;> simp
  refine ⟨fun o => by rw [heff.mem_eq hstore],
    fun hd => heff.readReg_eq (q := .x1) (by simp) (by simpa [hdest] using mt eq_one_of_regOf hd),
    fun hd => heff.readReg_eq (q := .x2) (by simp) (by simpa [hdest] using mt eq_two_of_regOf hd),
    ?status⟩
  case status =>
    rcases heff.raises_or_keepsStatus with ⟨e, he, rfl⟩ | ⟨hkept, -⟩
    · exact .inr ⟨rfl, he.errorCode_eq hunknown, rfl, rfl, rfl⟩
    · exact .inl hkept

/-- Settles O20: two cells may be written, and none when an error is raised. -/
theorem storeWordFrame : Obligations.StoreWordFrame := by
  intro reg addr s t h
  have heff := exec_effect h
  obtain ⟨hx1, hx2⟩ := heff.registers_eq rfl
  refine ⟨fun o hlo hhi => ?cells, hx1, hx2, ?status⟩
  case cells =>
    rcases heff.mem_eq_or_stores with hmem | ⟨reg', addr', v, hi, -, -, hmem⟩
    · rw [hmem]
    · cases hi
      rw [offsetOf] at hlo hhi
      rw [hmem, readCell_writeLittleEndian_two, if_neg hhi.symm, if_neg hlo.symm]
  case status =>
    rcases heff.raises_or_keepsStatus with ⟨e, he, rfl⟩ | ⟨hkept, -⟩
    · exact .inr ⟨rfl, he.errorCode_eq (by simp), rfl, fun _ => rfl⟩
    · exact .inl hkept

/-- `halt` raises no error (R96). -/
theorem Raises.ne_halt {i : Instr} {e : Error} (h : Raises i e) : i ≠ .halt := by
  cases h with
  | invalidRegister hi => exact hi.2
  | unknownInstruction _ hi => simp [hi]
  | outOfBounds _ _ hi _ => rcases hi with rfl | rfl <;> simp

/-- An instruction with no memory operand records no offset (R22). -/
theorem Raises.errorInfo_eq_zero {i : Instr} {e : Error} (h : Raises i e)
    (hi : ∀ reg addr, i ≠ .loadWord reg addr ∧ i ≠ .storeWord reg addr) : errorInfo e = 0 := by
  cases h with
  | invalidRegister => rfl
  | unknownInstruction => rfl
  | outOfBounds reg addr hi' _ =>
    obtain ⟨hload, hstore⟩ := hi reg addr
    exact absurd hi' (not_or.mpr ⟨hload, hstore⟩)

/-- Settles O21: the three have no data destination and no memory operand. -/
theorem controlFrame : Obligations.ControlFrame := by
  intro i a b c s t hi h
  have heff := exec_effect h
  have hdest : destination i = none := by rcases hi with rfl | rfl | rfl <;> rfl
  have haccess : ∀ reg addr, i ≠ .loadWord reg addr ∧ i ≠ .storeWord reg addr := by
    rcases hi with rfl | rfl | rfl <;> simp
  obtain ⟨hx1, hx2⟩ := heff.registers_eq hdest
  refine ⟨fun o => by rw [heff.mem_eq fun reg addr => (haccess reg addr).2], hx1, hx2, ?status⟩
  case status =>
    rcases heff.raises_or_keepsStatus with ⟨e, he, rfl⟩ | ⟨⟨hstatus, hcode, hinfo⟩, hunknown⟩
    · exact .inr ⟨rfl, he.errorInfo_eq_zero haccess, rfl, he.ne_halt⟩
    · exact .inl ⟨hstatus, hcode, hinfo, hunknown c⟩

/-! ### Stops (log 1) -/

/-- Body `i` is a `load_word` that passes its checks and reads a cell that nothing has filled. -/
def LoadsUnfilledCell (i : Instr) (s : State) : Prop :=
  ∃ reg addr : Byte, i = .loadWord reg addr ∧ reg.toNat < 3 ∧ addr.toNat ≤ 18 ∧
    (readCell s.mem addr.toNat = none ∨ readCell s.mem (addr.toNat + 1) = none)

theorem LoadsUnfilledCell.exec_eq {i : Instr} {s : State} (h : LoadsUnfilledCell i s) :
    exec i s = .fault .cellNotLoaded := by
  obtain ⟨reg, addr, rfl, hreg, haddr, hcell⟩ := h
  obtain ⟨r, hr⟩ := exists_regOf hreg
  have hread : memRead s.mem (offsetOf addr) 2 = .notLoaded := by
    rw [offsetOf, memRead_two, if_pos haddr]
    rcases hcell with hlo | hhi
    · rw [hlo]
    · rw [hhi]
      cases readCell s.mem addr.toNat <;> rfl
  rw [exec, execLoadWord, withReg_of_some hr, hread, withAccess]

theorem exists_next_loadWord {reg addr : Byte} {s : State}
    (h : ¬ LoadsUnfilledCell (.loadWord reg addr) s) :
    ∃ t, exec (.loadWord reg addr) s = .next t := by
  by_cases hreg : 3 ≤ reg.toNat
  · exact ⟨_, exec_loadWord_invalidRegister addr s hreg⟩
  by_cases haddr : 19 ≤ addr.toNat
  · exact ⟨_, exec_loadWord_outOfBounds s (by omega) haddr⟩
  obtain ⟨r, hr⟩ := exists_regOf (b := reg) (by omega)
  have hcells : ¬ (readCell s.mem addr.toNat = none ∨ readCell s.mem (addr.toNat + 1) = none) :=
    fun hnone => h ⟨reg, addr, rfl, by omega, by omega, hnone⟩
  obtain ⟨hlo, hhi⟩ := not_or.mp hcells
  obtain ⟨lo, hlo⟩ := Option.ne_none_iff_exists'.mp hlo
  obtain ⟨hi, hhi⟩ := Option.ne_none_iff_exists'.mp hhi
  exact ⟨_, exec_loadWord_done hr (by omega) hlo hhi⟩

theorem exists_next_storeWord (reg addr : Byte) (s : State) :
    ∃ t, exec (.storeWord reg addr) s = .next t := by
  by_cases hreg : 3 ≤ reg.toNat
  · exact ⟨_, exec_storeWord_invalidRegister addr s hreg⟩
  by_cases haddr : 19 ≤ addr.toNat
  · exact ⟨_, exec_storeWord_outOfBounds s (by omega) haddr⟩
  obtain ⟨r, hr⟩ := exists_regOf (b := reg) (by omega)
  exact ⟨_, exec_storeWord_done hr (by omega)⟩

/-- The register check answers a next state wherever the body behind it does (R77). -/
theorem exists_next_withReg {b : Byte} {s : State} {body : Reg → Result}
    (h : ∀ r, ∃ t, body r = .next t) : ∃ t, withReg b s body = .next t := by
  cases hr : regOf b with
  | none => exact ⟨_, withReg_of_none hr s body⟩
  | some r => exact (h r).imp fun t ht => (withReg_of_some hr s body).trans ht

/-- Every body answers a next state, but for a load of a cell that nothing has filled. -/
theorem exists_next_exec {i : Instr} {s : State} (h : ¬ LoadsUnfilledCell i s) :
    ∃ t, exec i s = .next t := by
  cases i with
  | loadWord reg addr => exact exists_next_loadWord h
  | storeWord reg addr => exact exists_next_storeWord reg addr s
  | add a b => exact exists_next_withReg fun _ => exists_next_withReg fun _ => ⟨_, rfl⟩
  | sub a b => exact exists_next_withReg fun _ => exists_next_withReg fun _ => ⟨_, rfl⟩
  | addImmediate reg k => exact exists_next_withReg fun _ => ⟨_, rfl⟩
  | branchIfEq a b t => exact exists_next_withReg fun _ => exists_next_withReg fun _ => ⟨_, rfl⟩
  | halt => exact ⟨_, rfl⟩
  | unknown b => exact ⟨_, rfl⟩

/-- Settles O33: either the body loads an unfilled cell, and then it faults, or it answers a next
state. -/
theorem bodiesStopOnlyAtUnloadedCells : Obligations.BodiesStopOnlyAtUnloadedCells := by
  intro i s
  by_cases hcell : LoadsUnfilledCell i s
  · rw [hcell.exec_eq]
    refine ⟨by simp, fun f => ⟨fun hf => ?_, fun ⟨hf, _⟩ => by rw [hf]⟩⟩
    cases hf
    exact ⟨rfl, hcell⟩
  · obtain ⟨t, ht⟩ := exists_next_exec hcell
    rw [ht]
    refine ⟨by simp, fun f => ⟨fun hf => ?_, fun ⟨_, hload⟩ => absurd hload hcell⟩⟩
    cases hf

/-! ### What a store leaves for a load, a fetch and the host (R42, R44, R127) -/

/-- The little-endian word of a value's low and high byte is the value (R37). -/
theorem word_of_bytes (v : Word) :
    s16 ((BitVec.ofNat 8 v.toNat).toNat + 256 * (BitVec.ofNat 8 (v.toNat / 256)).toNat) = v := by
  have hv := v.isLt
  apply BitVec.eq_of_toNat_eq
  simp only [s16, BitVec.toNat_ofNat]
  omega

/-- After a store inside the memory its two cells hold the low and the high byte of the register. -/
theorem readCell_of_stored {s t : State} {reg addr : Byte} {v : Word} (hv : OperandReads s reg v)
    (haddr : addr.toNat ≤ 18) (h : exec (.storeWord reg addr) s = .next t) :
    readCell t.mem addr.toNat = some (BitVec.ofNat 8 v.toNat) ∧
    readCell t.mem (addr.toNat + 1) = some (BitVec.ofNat 8 (v.toNat / 256)) := by
  obtain ⟨r, hr, rfl⟩ := hv.exists_regOf
  rw [exec_storeWord_done hr haddr] at h
  cases h
  exact ⟨by rw [readCell_writeLittleEndian_two, if_neg (by omega), if_pos rfl],
    by rw [readCell_writeLittleEndian_two, if_pos rfl]⟩

/-- Settles O42: the load reads the two bytes that were stored. -/
theorem loadAfterStoreReturnsTheValue : Obligations.LoadAfterStoreReturnsTheValue := by
  intro s t reg addr v hv haddr h
  obtain ⟨hlo, hhi⟩ := readCell_of_stored hv haddr h
  exact ⟨by rw [exec_loadWord_done (reg := 1) regOf_one haddr hlo hhi, word_of_bytes,
      writeBack_reg_x1],
    by rw [exec_loadWord_done (reg := 2) regOf_two haddr hlo hhi, word_of_bytes,
      writeBack_reg_x2]⟩

/-- Settles O43: the slice at the stored offset starts with the two cells. -/
theorem storedBytesAreFetched : Obligations.StoredBytesAreFetched := by
  intro s t reg addr v hv haddr h
  obtain ⟨hlo, hhi⟩ := readCell_of_stored hv haddr h
  refine loadedFrom_prefix (bs := [BitVec.ofNat 8 v.toNat, BitVec.ofNat 8 (v.toNat / 256)])
    (by rw [memSize_eq, List.length_cons, List.length_singleton]; omega) fun k hk => ?_
  obtain rfl | rfl : k = 0 ∨ k = 1 := by simp at hk; omega
  · exact hlo
  · exact hhi

/-- The output word by its two cells (R127). -/
theorem outputWord_of_cells {s : State} {lo hi : Byte} (hlo : readCell s.mem 14 = some lo)
    (hhi : readCell s.mem 15 = some hi) :
    outputWord s = some (s16 (lo.toNat + 256 * hi.toNat)) := by
  have hlow : readByte s Config.outputOffset = some lo := hlo
  have hhigh : readByte s (Config.outputOffset + 1) = some hi := hhi
  rw [outputWord, hlow, hhigh]

/-- Settles O48: the second clause is the first at the stored bytes. -/
theorem outputWordIsWhatWasStored : Obligations.OutputWordIsWhatWasStored := by
  refine ⟨fun s lo hi => outputWord_of_cells, fun s t reg v hv h => ?_⟩
  obtain ⟨hlo, hhi⟩ := readCell_of_stored hv (by decide) h
  rw [outputWord_of_cells hlo hhi, word_of_bytes]

/-! ### `add_immediate`, `sub` after `add`, and `halt` -/

theorem exec_addImmediate_of_some {reg : Byte} {r : Reg} (k : Byte) (s : State)
    (hr : regOf reg = some r) :
    exec (.addImmediate reg k) s =
      .next (writeBack r (BitVec.ofInt 16 ((readReg s r).toInt + k.toNat)) s) := by
  rw [exec, execAddImmediate, withReg_of_some hr, aluAdd, wrap16, toInt_zext16]

/-- Settles O12: the register check, and `writeBack` at each register. -/
theorem addImmediateMeaning : Obligations.AddImmediateMeaning := by
  intro reg k s
  refine ⟨rfl, decode_of_instrLength_three (by decide) reg k,
    exec_addImmediate_invalidRegister k s, fun h0 => ?toX0, fun h1 => ?toX1, fun h2 => ?toX2⟩
  case toX0 =>
    have hr : regOf reg = some .x0 := h0 ▸ regOf_zero
    rw [exec_addImmediate_of_some k s hr, writeBack_reg_x0]
  case toX1 =>
    have hr : regOf reg = some .x1 := h1 ▸ regOf_one
    rw [exec_addImmediate_of_some k s hr, writeBack_reg_x1, readReg_x1]
  case toX2 =>
    have hr : regOf reg = some .x2 := h2 ▸ regOf_two
    rw [exec_addImmediate_of_some k s hr, writeBack_reg_x2, readReg_x2]

/-- For two different registers other than the pc, `sub` after `add` restores both: the first by the
ALU's inverse law (R90), the second because neither instruction writes it. -/
theorem sub_restores_after_add {s t u : State} {a b : Byte} {ra rb : Reg} (ha : regOf a = some ra)
    (hb : regOf b = some rb) (ha0 : ra ≠ .x0) (hb0 : rb ≠ .x0) (hne : rb ≠ ra)
    (ht : exec (.add a b) s = .next t) (hu : exec (.sub a b) t = .next u) :
    readReg u ra = readReg s ra ∧ readReg u rb = readReg s rb := by
  rw [exec_add, withRegs_of_some ha hb] at ht
  rw [exec_sub, withRegs_of_some ha hb] at hu
  cases ht
  cases hu
  refine ⟨?_, ?_⟩
  · rw [readReg_writeBack_self _ _ ha0, readReg_writeBack_self _ _ ha0,
      readReg_writeBack_of_ne _ _ hb0 hne, aluAdd_eq, aluSub_eq, BitVec.add_sub_cancel]
  · rw [readReg_writeBack_of_ne _ _ hb0 hne, readReg_writeBack_of_ne _ _ hb0 hne]

/-- Settles O41: registers 1 and 2 in both orders. -/
theorem subUndoesAdd : Obligations.SubUndoesAdd := by
  intro s t u
  refine ⟨fun ht hu => ?_, fun ht hu => ?_⟩
  · exact sub_restores_after_add regOf_one regOf_two (by simp) (by simp) (by simp) ht hu
  · exact (sub_restores_after_add regOf_two regOf_one (by simp) (by simp) (by simp) ht hu).symm

/-- Settles O14: `halt` is its own pc write, and the step after it is the success halt. -/
theorem haltTakesTwoSteps : Obligations.HaltTakesTwoSteps := by
  intro s
  refine ⟨rfl, fun rest => decodeOfEncode .halt rest rfl, rfl, fun hs => ?_⟩
  have hpast : 20 ≤ (20 : Word).toInt := by decide
  exact step_of_past_end (s := { s with x0 := 20 }) hs hpast

end Sys2Proof.Machine
end

section
/-! PROOFS. The step: which branch a state takes, what a step can write, and the invariants that
every step keeps (spec 10_state, R18, R20 to R23; 40_step_cycle, R70 to R75; 60_exceptions, R106). -/

namespace Sys2Proof.Machine

/-! ### The branches of the step (R70) -/

/-- The terminal states do nothing (R71). -/
theorem step_of_not_running {s : State} (hs : s.status ≠ .running) : step s = .next s := by
  rw [step, stepCycle]
  cases hstatus : s.status with
  | running => exact absurd hstatus hs
  | halted => rfl
  | errored => rfl

/-- A negative pc is found before anything else (R72). -/
theorem step_of_negative {s : State} (hs : s.status = .running) (h0 : s.x0.toInt < 0) :
    step s = .next (raiseError .negativePc s) := by
  rw [step, stepCycle, hs]
  exact if_pos h0

/-- A pc that passes the check for `NegativePc` reads the same signed and unsigned (R72). -/
theorem toInt_eq_toNat_of_nonneg {w : Word} (h0 : 0 ≤ w.toInt) : w.toInt = w.toNat := by
  have hcond := BitVec.toInt_eq_toNat_cond w
  split at hcond <;> omega

/-- Settles O2: the run stays at the one state that it starts from. -/
theorem terminalStatesAbsorbEveryRun : Obligations.TerminalStatesAbsorbEveryRun := by
  intro k s hs
  have hstep : ∀ u, u = s → ∃ t, step u = .next t ∧ t = s := by
    rintro u rfl
    exact ⟨u, step_of_not_running hs, rfl⟩
  obtain ⟨t, hrun, rfl⟩ := runSteps_keeps hstep k rfl
  exact hrun

/-- Settles O3: bit 15 is the sign. -/
theorem negativePcIsCheckedFirst : Obligations.NegativePcIsCheckedFirst := by
  intro s hs hmsb
  have h0 : s.x0.toInt < 0 := by simpa [BitVec.msb_eq_toInt] using hmsb
  exact ⟨h0, step_of_negative hs h0⟩

/-- Settles O1: the bytes are what fetch finds at the pc. -/
theorem stepRunsTheDecodedInstruction : Obligations.StepRunsTheDecodedInstruction := by
  intro s bytes i hs h0 hend hcells hd
  have hpc := toInt_eq_toNat_of_nonneg h0
  have hpos : 0 < bytes.length := by
    obtain ⟨op, operands, rfl, -, -, -⟩ := decode_ok hd
    simp
  have hfetch : fetch s.mem s.x0.toNat = .instr i := fetch_of_bytes (by omega) hcells hd
  rw [step_of_inside hs h0 (by omega), fetchAndExec, hfetch]

/-- Settles O6: fetch finds `Truncated` from the opcode's length (R75). -/
theorem truncatedFromTheOpcodeAlone : Obligations.TruncatedFromTheOpcodeAlone := by
  intro s op hs h0 h20 hop hlen
  have hpc := toInt_eq_toNat_of_nonneg h0
  have hfetch : fetch s.mem s.x0.toNat = .truncated :=
    fetch_truncated.mpr ⟨op, hop, by rw [memSize_eq]; omega⟩
  rw [step_of_inside hs h0 h20, fetchAndExec, hfetch]
  rfl

/-- Settles O7: fetch asks for the opcode's cell first; after reset no cell holds a value. -/
theorem fetchOfAnUnloadedCellStops : Obligations.FetchOfAnUnloadedCellStops := by
  have hstop : ∀ s : State, s.status = .running → 0 ≤ s.x0.toInt → s.x0.toInt < 20 →
      readCell s.mem s.x0.toNat = none → step s = .fault .cellNotLoaded := by
    intro s hs h0 h20 hcell
    rw [step_of_inside hs h0 h20, fetchAndExec, fetch_notLoaded_of_none hcell]
  exact ⟨hstop, hstop State.reset rfl (by decide) (by decide) rfl⟩

/-! ### The status registers after a step -/

/-- The errors that a step from `s` can raise (R72, R75, R76). -/
inductive StepRaises (s : State) : Error → Prop where
  | negativePc (h0 : s.x0.toInt < 0) : StepRaises s .negativePc
  | truncated : StepRaises s .truncated
  | body (i : Instr) (e : Error) (hi : fetch s.mem s.x0.toNat = .instr i) (he : Raises i e) :
      StepRaises s e

/-- A step changes nothing, or enters an error and does nothing else, or halts a running core with
success, or runs a body that leaves the status registers alone. -/
theorem step_status {s t : State} (h : step s = .next t) :
    t = s ∨ (∃ e, StepRaises s e ∧ t = raiseError e s) ∨
    (s.status = .running ∧ t = haltSuccess s) ∨ (s.status = .running ∧ KeepsStatus s t) := by
  rcases step_next h with ⟨-, rfl⟩ | ⟨-, h0, rfl⟩ | ⟨hs, -, rfl⟩ | ⟨-, -, -, -, rfl⟩ |
    ⟨hs, -, -, i, hi, hexec⟩
  · exact .inl rfl
  · exact .inr (.inl ⟨_, .negativePc h0, rfl⟩)
  · exact .inr (.inr (.inl ⟨hs, rfl⟩))
  · exact .inr (.inl ⟨_, .truncated, rfl⟩)
  · rcases (exec_effect hexec).raises_or_keepsStatus with ⟨e, he, rfl⟩ | ⟨hkept, -⟩
    · exact .inr (.inl ⟨e, .body i e hi he, rfl⟩)
    · exact .inr (.inr (.inr ⟨hs, hkept⟩))

/-- A step that newly records an error's code has raised that error. -/
theorem stepRaises_of_errCode {s t : State} {c : ErrCode} (h : step s = .next t)
    (hs : s.errCode ≠ c) (ht : t.errCode = c) :
    ∃ e, StepRaises s e ∧ errorCode e = c ∧ t = raiseError e s := by
  rcases step_status h with rfl | ⟨e, he, rfl⟩ | ⟨-, rfl⟩ | ⟨-, -, hcode, -⟩
  · exact absurd ht hs
  · exact ⟨e, he, ht, rfl⟩
  · exact absurd ht hs
  · exact absurd (hcode.symm.trans ht) hs

/-- `OutOfBounds` is raised by the body of a load or store alone, with the lowest offset outside. -/
theorem StepRaises.of_outOfBounds {s : State} {o : Nat} (h : StepRaises s (.outOfBounds o)) :
    ∃ i reg addr, fetch s.mem s.x0.toNat = .instr i ∧
      (i = .loadWord reg addr ∨ i = .storeWord reg addr) ∧ 19 ≤ addr.toNat ∧
      o = max addr.toNat 20 := by
  cases h with
  | body i _ hi he =>
    cases he with
    | outOfBounds reg addr hacc ha => exact ⟨i, reg, addr, hi, hacc, ha, rfl⟩

/-- `NegativePc` is raised by the pc check alone (R72, R102). -/
theorem StepRaises.of_negativePc {s : State} (h : StepRaises s .negativePc) : s.x0.toInt < 0 := by
  cases h with
  | negativePc h0 => exact h0
  | body _ _ _ he => cases he

/-- Settles O17: the error's offset is recorded in the eight bits of `ERR_INFO`, which hold it. -/
theorem onlyLoadAndStoreRaiseOutOfBounds : Obligations.OnlyLoadAndStoreRaiseOutOfBounds := by
  intro s t h hs ht
  obtain ⟨e, he, hcode, rfl⟩ := stepRaises_of_errCode h hs ht
  cases e with
  | outOfBounds o =>
    obtain ⟨i, reg, addr, hfetch, hacc, haddr, rfl⟩ := he.of_outOfBounds
    obtain ⟨op, -, -, hd⟩ := fetch_instr hfetch
    refine ⟨i, _, reg, addr, hd, hacc, haddr, ?_⟩
    rw [raiseError_errInfo, errorInfo]
    split
    · next hout => rw [max_eq_left hout, BitVec.ofNat_toNat, BitVec.setWidth_eq]
    · next hin => rw [max_eq_right (by omega)]; rfl
  | negativePc | unknownInstruction | invalidRegister | truncated => cases hcode

/-- Settles O18: of the ways of `step_status`, only a state that was `ERRORED` and the entry of an
error end in `ERRORED`. -/
theorem errorsArePrecise : Obligations.ErrorsArePrecise := by
  intro s t h ht
  rcases step_status h with rfl | ⟨e, -, rfl⟩ | ⟨-, rfl⟩ | ⟨hs, hstatus, -⟩
  · exact ⟨rfl, rfl, rfl, rfl⟩
  · exact ⟨rfl, rfl, rfl, rfl⟩
  · cases ht
  · rw [ht, hs] at hstatus
    cases hstatus

/-- An entry of an error leaves consistent status registers if a recorded offset is one outside the
memory that eight bits hold (R21, R22). -/
theorem statusConsistent_raiseError {e : Error} (s : State)
    (he : ∀ o, e = .outOfBounds o → 20 ≤ o ∧ o ≤ 255) : StatusConsistent (raiseError e s) := by
  cases e with
  | outOfBounds o =>
    obtain ⟨hlo, hhi⟩ := he o rfl
    have hinfo : 20 ≤ (BitVec.ofNat 8 o).toNat := by rw [BitVec.toNat_ofNat]; omega
    exact ⟨by simp [errorCode], fun hne => absurd rfl hne, fun _ => hinfo⟩
  | negativePc | unknownInstruction | invalidRegister | truncated =>
    simp [StatusConsistent, errorCode, errorInfo]

theorem KeepsStatus.statusConsistent {s t : State} (h : KeepsStatus s t)
    (hc : StatusConsistent s) : StatusConsistent t := by
  obtain ⟨hstatus, hcode, hinfo⟩ := h
  rwa [StatusConsistent, hstatus, hcode, hinfo]

/-- Settles O25: along the ways of `step_status`. -/
theorem stepKeepsStatusConsistent : Obligations.StepKeepsStatusConsistent := by
  intro s t hc h
  rcases step_status h with rfl | ⟨e, he, rfl⟩ | ⟨hs, rfl⟩ | ⟨-, hkept⟩
  · exact hc
  · refine statusConsistent_raiseError s fun o ho => ?_
    subst ho
    obtain ⟨-, -, addr, -, -, -, rfl⟩ := he.of_outOfBounds
    have := addr.isLt
    omega
  · obtain ⟨hcode, hinfo⟩ := hc.no_error (by simp [hs])
    simp [StatusConsistent, hcode, hinfo]
  · exact hkept.statusConsistent hc

/-! ### The memory after a step -/

/-- A step leaves the memory as it was, or stores the two bytes of a fetched `store_word` with a
valid register and both cells inside (R23, R31). -/
theorem step_mem {s t : State} (h : step s = .next t) :
    t.mem = s.mem ∨ ∃ (reg addr : Byte) (v : Nat),
      fetch s.mem s.x0.toNat = .instr (.storeWord reg addr) ∧ reg.toNat < 3 ∧ addr.toNat ≤ 18 ∧
      t.mem = writeLittleEndian s.mem addr.toNat 2 v := by
  rcases step_next h with ⟨-, rfl⟩ | ⟨-, -, rfl⟩ | ⟨-, -, rfl⟩ | ⟨-, -, -, -, rfl⟩ |
    ⟨-, -, -, i, hi, hexec⟩
  · exact .inl rfl
  · exact .inl rfl
  · exact .inl rfl
  · exact .inl rfl
  · rcases (exec_effect hexec).mem_eq_or_stores with hmem | ⟨reg, addr, v, rfl, hreg, haddr, hmem⟩
    · exact .inl hmem
    · exact .inr ⟨reg, addr, v, hi, hreg, haddr, hmem⟩

/-- Settles O22: the second way of `step_mem`. -/
theorem onlyStoreWordChangesMemory : Obligations.OnlyStoreWordChangesMemory := by
  intro s t h hne
  rcases step_mem h with hmem | ⟨reg, addr, _, hfetch, hreg, haddr, -⟩
  · exact absurd hmem hne
  · obtain ⟨op, -, -, hd⟩ := fetch_instr hfetch
    exact ⟨reg, addr, _, hd, hreg, haddr⟩

/-- Settles O24: a store inside the memory keeps the canonical form. -/
theorem stepKeepsMemoryCanonical : Obligations.StepKeepsMemoryCanonical := by
  intro s t hs h
  rw [MemoryCanonical] at hs ⊢
  rcases step_mem h with hmem | ⟨_, addr, v, -, -, haddr, hmem⟩
  · rwa [hmem]
  · rw [hmem]
    exact writeLittleEndian_wf v hs (by rw [memSize_eq]; omega)

/-- A step empties no cell. -/
theorem Loaded.step_next {s t : State} (hs : Loaded s) (h : step s = .next t) : Loaded t := by
  intro o ho
  rcases step_mem h with hmem | ⟨_, addr, v, -, -, -, hmem⟩
  · rw [hmem]
    exact hs o ho
  · rw [hmem, writeLittleEndian_two]
    exact readCell_writeCell_filled _ _ (readCell_writeCell_filled _ _ (hs o ho))

/-- In a filled memory no body stops (log 1). -/
theorem Loaded.exists_next_exec {s : State} (hs : Loaded s) (i : Instr) :
    ∃ t, exec i s = .next t := by
  refine Machine.exists_next_exec ?_
  rintro ⟨_, addr, -, -, haddr, hnone⟩
  obtain ⟨lo, hlo⟩ := hs addr.toNat (by rw [memSize_eq]; omega)
  obtain ⟨hi, hhi⟩ := hs (addr.toNat + 1) (by rw [memSize_eq]; omega)
  simp [hlo, hhi] at hnone

/-- In a filled memory no step stops: neither its fetch nor its body asks for an unfilled cell. -/
theorem Loaded.exists_next_step {s : State} (hs : Loaded s) : ∃ t, step s = .next t := by
  by_cases hrun : s.status = .running
  · by_cases h0 : s.x0.toInt < 0
    · exact ⟨_, step_of_negative hrun h0⟩
    by_cases h20 : 20 ≤ s.x0.toInt
    · exact ⟨_, step_of_past_end hrun h20⟩
    rw [step_of_inside hrun (by omega) (by omega), fetchAndExec]
    have hpc : s.x0.toNat < 20 := toNat_lt_of_inside (by omega) (by omega)
    cases hfetch : fetch s.mem s.x0.toNat with
    | instr i => exact hs.exists_next_exec i
    | truncated => exact ⟨_, rfl⟩
    | notLoaded => exact absurd hfetch (hs.fetch_ne_notLoaded hpc)
  · exact ⟨_, step_of_not_running hrun⟩

/-- Settles O27: there is a next state, and in it no cell is empty. -/
theorem loadedStepNeverStops : Obligations.LoadedStepNeverStops := by
  intro s hs
  obtain ⟨t, ht⟩ := hs.exists_next_step
  exact ⟨t, ht, hs.step_next ht⟩

/-! ### The pc after a step (R18, R79) -/

/-- A byte that names a register reads that register's value as an operand. -/
theorem operandReads_of_regOf {s : State} {b : Byte} {r : Reg} (h : regOf b = some r) :
    OperandReads s b (readReg s r) := by
  rcases regOf_eq_some h with ⟨hb, rfl⟩ | ⟨hb, rfl⟩ | ⟨hb, rfl⟩
  · exact .inl ⟨hb, rfl⟩
  · exact .inr (.inl ⟨hb, rfl⟩)
  · exact .inr (.inr ⟨hb, rfl⟩)

/-- `i` is a branch whose two registers read the same value in `s`, and `w` is its target. -/
def BranchesTo (i : Instr) (s : State) (w : Word) : Prop :=
  ∃ (a b target : Byte) (v : Word), i = .branchIfEq a b target ∧ OperandReads s a v ∧
    OperandReads s b v ∧ w = zext16 target

/-- A body leaves the pc where it was, on an error, or advances it by the instruction's length, or
writes 20 to it, as `halt` does, or takes a branch. -/
theorem Effect.pc {i : Instr} {s t : State} (h : Effect i s t) :
    t.x0 = s.x0 ∨ t.x0 = s.x0 + BitVec.ofNat 16 (encode i).length ∨ t.x0 = 20 ∨
      BranchesTo i s t.x0 := by
  cases h with
  | invalidRegister _ ht => exact .inl (by rw [ht, raiseError_x0])
  | unknownInstruction _ _ ht => exact .inl (by rw [ht, raiseError_x0])
  | outOfBounds _ _ _ _ _ _ ht => exact .inl (by rw [ht, raiseError_x0])
  | load _ _ _ _ _ hi _ _ _ _ ht => exact .inr (.inl (by rw [ht, hi, writeBack_x0]; rfl))
  | store _ _ _ _ hi _ _ _ ht => exact .inr (.inl (by rw [ht, hi, setPc_x0]; rfl))
  | arithmetic _ _ _ _ hi _ ht =>
    refine .inr (.inl ?_)
    rw [ht, writeBack_x0]
    rcases hi with rfl | rfl | rfl <;> rfl
  | taken a b target ra rb hi ha hb he ht =>
    exact .inr (.inr (.inr ⟨a, b, target, _, hi, operandReads_of_regOf ha,
      he ▸ operandReads_of_regOf hb, by rw [ht, setPc_x0]⟩))
  | untaken _ _ _ _ _ hi _ _ _ ht => exact .inr (.inl (by rw [ht, hi, setPc_x0]; rfl))
  | halt _ ht => exact .inr (.inr (.inl (by rw [ht, setPc_x0])))

/-- An instruction that fetch finds ends in the memory (R75). -/
theorem fetch_instr_fits {m : Memory} {p : Nat} {i : Instr} (h : fetch m p = .instr i) :
    p + (encode i).length ≤ 20 := by
  obtain ⟨op, -, hfits, hd⟩ := fetch_instr h
  obtain ⟨-, hlen, -⟩ := encodeOfDecode _ _ _ hd
  rwa [← hlen]

/-- A pc that advances inside the memory, or to its end, is the exact sum (R79). -/
theorem toInt_add_ofNat {w : Word} {n : Nat} (h : w.toNat + n ≤ 20) :
    (w + BitVec.ofNat 16 n).toInt = w.toNat + n := by
  have hsum : (w + BitVec.ofNat 16 n).toNat = w.toNat + n := by
    rw [BitVec.toNat_add, BitVec.toNat_ofNat]
    omega
  rw [BitVec.toInt_eq_toNat_of_lt (by omega), hsum, Nat.cast_add]

/-- A body run from a pc inside the memory leaves the pc in 0..20 or takes a branch (R18). -/
theorem exec_pc_of_inside {s t : State} {i : Instr} (h0 : 0 ≤ s.x0.toInt) (h20 : s.x0.toInt < 20)
    (hi : fetch s.mem s.x0.toNat = .instr i) (h : exec i s = .next t) :
    (0 ≤ t.x0.toInt ∧ t.x0.toInt ≤ 20) ∨ BranchesTo i s t.x0 := by
  rcases (exec_effect h).pc with hpc | hpc | hpc | hbranch
  · exact .inl (by rw [hpc]; omega)
  · have hsum := toInt_add_ofNat (fetch_instr_fits hi)
    have hfits := fetch_instr_fits hi
    exact .inl (by rw [hpc, hsum]; omega)
  · exact .inl (by rw [hpc]; decide)
  · exact .inr hbranch

/-- A branch target is a byte (R54). -/
theorem BranchesTo.range {i : Instr} {s : State} {w : Word} (h : BranchesTo i s w) :
    0 ≤ w.toInt ∧ w.toInt ≤ 255 := by
  obtain ⟨_, _, target, _, -, -, -, rfl⟩ := h
  have := target.isLt
  rw [toInt_zext16]
  omega

/-- Settles O23: without a branch the pc does not pass 20. -/
theorem onlyATakenBranchPassesTwenty : Obligations.OnlyATakenBranchPassesTwenty := by
  intro s t hs h0 h20 h hpast
  rw [step_of_inside hs h0 h20, fetchAndExec] at h
  cases hfetch : fetch s.mem s.x0.toNat with
  | instr i =>
    rw [hfetch] at h
    rcases exec_pc_of_inside h0 h20 hfetch h with hpc | ⟨a, b, target, v, rfl, ha, hb, htarget⟩
    · omega
    · obtain ⟨op, -, -, hd⟩ := fetch_instr hfetch
      exact ⟨a, b, target, _, v, hd, ha, hb, by rw [htarget, toInt_zext16]⟩
  | truncated =>
    rw [hfetch] at h
    cases h
    rw [raiseError_x0] at hpast
    omega
  | notLoaded => rw [hfetch] at h; cases h

/-- The pc stays in 0..255 whichever branch the step takes (R18). -/
theorem PcInRange.step_next {s t : State} (hs : PcInRange s) (h : step s = .next t) :
    PcInRange t := by
  rcases Machine.step_next h with ⟨-, rfl⟩ | ⟨-, -, rfl⟩ | ⟨-, -, rfl⟩ | ⟨-, -, -, -, rfl⟩ |
    ⟨-, h0, h20, i, hi, hexec⟩
  · exact hs
  · exact hs
  · exact hs
  · exact hs
  · rcases exec_pc_of_inside h0 h20 hi hexec with ⟨hlo, hhi⟩ | hbranch
    · exact ⟨hlo, by omega⟩
    · exact hbranch.range

/-- Settles O26: `NegativePc` is raised at a negative pc alone. -/
theorem stepKeepsPcInRange : Obligations.StepKeepsPcInRange := by
  intro s t hs h
  refine ⟨hs.step_next h, fun hcode hnew => ?_⟩
  obtain ⟨e, he, hneg, -⟩ := stepRaises_of_errCode h hcode hnew
  obtain ⟨hlo, -⟩ := hs
  cases e with
  | negativePc => exact absurd he.of_negativePc (by omega)
  | outOfBounds _ | unknownInstruction | invalidRegister | truncated => cases hneg

/-! ### Runs of a launched machine -/

/-- A step keeps all that a launched machine keeps. -/
theorem Launched.step_next {s t : State} (hs : Launched s) (h : step s = .next t) : Launched t := by
  obtain ⟨hcanonical, hloaded, hstatus, hpc, hcode⟩ := hs
  obtain ⟨hpc', hcode'⟩ := stepKeepsPcInRange s t hpc h
  exact ⟨stepKeepsMemoryCanonical s t hcanonical h, hloaded.step_next h,
    stepKeepsStatusConsistent s t hstatus h, hpc', hcode' hcode⟩

theorem Launched.loaded {s : State} (hs : Launched s) : Loaded s := by
  obtain ⟨-, hloaded, -⟩ := hs
  exact hloaded

/-- Settles O28: the induction over a run, with a step that never stops and keeps `Launched`. -/
theorem launchedRunNeverStops : Obligations.LaunchedRunNeverStops := by
  intro k s hs
  refine runSteps_keeps (fun u hu => ?_) k hs
  obtain ⟨t, ht⟩ := hu.loaded.exists_next_step
  exact ⟨t, ht, hu.step_next ht⟩

end Sys2Proof.Machine
end

section
/-! PROOFS. Reset, the launch of a run, and the words that the host reads (spec 10_state, R20, R21;
70_reset_and_hazards, R120, R124). -/

namespace Sys2Proof.Machine

/-! ### Reset (R120) -/

/-- Reset leaves consistent status registers and the pc at 0, from any state. -/
theorem applyReset_meets_invariants (s : State) :
    StatusConsistent (applyReset s) ∧ PcInRange (applyReset s) ∧
      (applyReset s).errCode ≠ .negativePc :=
  ⟨by simp [StatusConsistent], by simp [PcInRange], by simp⟩

/-- Settles O29: the reset state is what reset makes of itself, and its memory lists nothing. -/
theorem resetMeetsTheInvariants : Obligations.ResetMeetsTheInvariants :=
  ⟨reset_memory_wf, applyReset_meets_invariants State.reset⟩

/-- Settles O30: by the definitions of the two. -/
theorem resetZeroesAllButMemory : Obligations.ResetZeroesAllButMemory := fun _ => ⟨rfl, rfl⟩

/-! ### The launch (R124) -/

theorem launch_of_length {image : List Byte} (s : State) (h : image.length = 20) :
    launch image s = .next (applyReset { s with mem := writeBytes s.mem 0 image }) := by
  rw [launch, loadImage, if_pos h]

/-- Settles O31: each cell is written once with its byte, and reset does the rest. -/
theorem launchOfTwentyBytes : Obligations.LaunchOfTwentyBytes := by
  intro image s hs hlen
  have hcell : ∀ o, o < 20 → readCell (writeBytes s.mem 0 image) o = image[o]? := fun o ho => by
    rw [readCell_writeBytes, if_pos (by rw [memSize_eq]; omega), Nat.sub_zero]
  have hloaded : ∀ o, o < 20 → ∃ b, readCell (writeBytes s.mem 0 image) o = some b := fun o ho =>
    ⟨_, (hcell o ho).trans (List.getElem?_eq_getElem (by omega))⟩
  exact ⟨_, launch_of_length s hlen,
    ⟨writeBytes_wf image hs, hloaded, applyReset_meets_invariants _⟩, rfl, rfl, rfl, rfl, hcell⟩

/-- Settles O32: the load is refused, and the launch with it. -/
theorem imageOfAnotherLengthIsRefused : Obligations.ImageOfAnotherLengthIsRefused := by
  intro image s hlen
  have hload : loadImage image s = .refused (.imageLength image.length) := if_neg hlen
  exact ⟨hload, by rw [launch, hload]⟩

/-! ### The status words (R20, R21) -/

/-- The code word is 0 for no error alone. -/
theorem errCodeWord_eq_zero_iff (s : State) : errCodeWord s = 0 ↔ s.errCode = .none := by
  cases h : s.errCode <;> simp [errCodeWord, h]

/-- The status word is 2 for `ERRORED` alone. -/
theorem statusWord_eq_two_iff (s : State) : statusWord s = 2 ↔ s.status = .errored := by
  cases h : s.status <;> simp [statusWord, h]

/-- Settles O47: the two tables, row by row, and the consistency of R21 over their words. -/
theorem statusWordsAreLegal : Obligations.StatusWordsAreLegal := by
  intro s
  refine ⟨fun h => by rw [statusWord, h], fun h => by rw [statusWord, h],
    fun h => by rw [statusWord, h], fun h => by rw [errCodeWord, h],
    fun h => by rw [errCodeWord, h], fun h => by rw [errCodeWord, h],
    fun h => by rw [errCodeWord, h], fun h => by rw [errCodeWord, h],
    fun h => by rw [errCodeWord, h], ?never3, ?atMost5, fun hc => ?consistent⟩
  case never3 => cases h : s.status <;> simp [statusWord, h]
  case atMost5 => cases h : s.errCode <;> simp [errCodeWord, h]
  case consistent =>
    obtain ⟨herrored, -, -⟩ := hc
    rw [errCodeWord_eq_zero_iff, Ne, statusWord_eq_two_iff, herrored, not_not]

end Sys2Proof.Machine
end
